-- ==== Sys2Proof/Word.lean ====
section
/-! DEFINITION. The words of the block: bytes, 16-bit values and byte strings (`00_scope.md` R10, R11). -/

namespace Sys2Proof

/-- `u8`: the unit of every data movement (R56). -/
abbrev Byte := BitVec 8

/-- `u16`: `sequence`, `checksum` and the CRC register. -/
abbrev Half := BitVec 16

/-- A byte string `b[0], b[1], …`, `b[0]` first on the wire (R10). -/
abbrev Bytes := List Byte

end Sys2Proof
end

