-- ==== Sys2Proof/Config.lean ====
section
/-! DEFINITION. What an implementation of the block fixes: the parameters of `00_scope.md` R7 and R8 at the
values the spec adopts (D22), and, with no body, what it leaves open: the two open parameters of R9 and the
host's announce name (R180). -/

namespace Sys2Proof

/-- `ZERO_TOTAL_POLICY` (R9, R151): what PROCESS does with a checksum-correct frame whose `total_fragments` is 0. -/
inductive ZeroTotalPolicy where
  | direct
  | fragError
  | invalid
  deriving DecidableEq, Repr, Inhabited

/-- `FRAG_REJECT_ORDER` (R9, R128): whether ADD_FRAGMENT looks up, evicts and creates before or after it rejects
an out-of-range `fragment_index`. -/
inductive FragRejectOrder where
  | allocateFirst
  | checkFirst
  deriving DecidableEq, Repr, Inhabited

/-- The parameters of R7 (no "e.g." in the source) and R8 (adopted by D22), each a named field with the spec's value. -/
structure Parameters where
  /-- `HEADER_SIZE`, bytes of the frame header. -/
  headerSize : Nat := 16
  /-- `MTU`, the largest frame in bytes, header included. -/
  mtu : Nat := 244
  /-- `PROTOCOL_VERSION`, the only legal `version` byte. -/
  protocolVersion : Byte := 1
  /-- `CRC_INIT`. -/
  crcInit : Half := 0xFFFF
  /-- `CRC_POLY`. -/
  crcPoly : Half := 0x1021
  /-- `MAX_FRAGMENT_PAYLOAD` = `MTU` - `HEADER_SIZE`. -/
  maxFragmentPayload : Nat := 228
  /-- `MAX_FRAGMENTS`, fragments per message and slots per FragmentBuffer. -/
  maxFragments : Nat := 8
  /-- `MAX_MESSAGE_SIZE`, the bound of a Message payload (the payload alone, D23). -/
  maxMessageSize : Nat := 1024
  /-- `FRAG_TABLE_CAP`, FragmentBuffers held at once. -/
  fragTableCap : Nat := 4
  /-- `RX_DEDUP_CAP`, entries of the receive window. -/
  rxDedupCap : Nat := 32
  /-- `RELAY_DEDUP_CAP`, entries of the relay window. -/
  relayDedupCap : Nat := 16
  /-- `DEFAULT_TTL`, `ttl` of a freshly created message (used by the host only, R181). -/
  defaultTtl : Byte := 3
  deriving DecidableEq, Repr

/-- The parameters of this hardware: every field at its default. -/
def Config.par : Parameters := {}

/-- The largest value of `cmd_len` the command port carries (R76). -/
def Config.cmdLenMax : Nat := 65535

/-- The block's `ZERO_TOTAL_POLICY`. OPEN in the spec (R9, D20): no body, so no proof can see which it is. -/
opaque Config.zeroTotalPolicy : ZeroTotalPolicy

/-- The block's `FRAG_REJECT_ORDER`. OPEN in the spec (R9, D21): no body, so no proof can see which it is. -/
opaque Config.fragRejectOrder : FragRejectOrder

/-- The host's `DEFAULT_ANNOUNCE_NAME` (R180, N11): the source gives no text, so it has no body. -/
opaque Config.defaultAnnounceName : Bytes

end Sys2Proof
end

