-- ==== Sys2Proof/Syntax.lean ====
section
/-! DEFINITION. The record types of `10_state.md` R20 to R23, the command port's record (`30_encoding.md` R76), what
the host can present, and the instructions: one constructor per row of `opcode_table.json`. -/

namespace Sys2Proof

/-- A 6-byte device identifier, `b0` first on the wire. It is a string of bytes and not an integer (R51). -/
structure DeviceId where
  b0 : Byte
  b1 : Byte
  b2 : Byte
  b3 : Byte
  b4 : Byte
  b5 : Byte
  deriving DecidableEq, Repr

/-- The closed sum type of the message types (R72, R177). Their codes are `Machine.typeCode`. -/
inductive MsgType where
  | text
  | ack
  | announce
  | relay
  deriving DecidableEq, Repr

/-- `Header` (R20). Every byte value is admitted in every other field: the block checks the invariant
`fragment_index < total_fragments` nowhere on parsing (`90_conflicts.md` C3). -/
structure Header where
  version : Byte
  msgType : MsgType
  senderId : DeviceId
  sequence : Half
  fragmentIndex : Byte
  totalFragments : Byte
  ttl : Byte
  flags : Byte
  checksum : Half
  deriving DecidableEq, Repr

/-- The nine header fields as bytes and words, before the type byte is read: what the 16 header bytes hold (R70)
and what `cmd_hdr` carries on the port (R76). -/
structure RawHeader where
  version : Byte
  msgType : Byte
  senderId : DeviceId
  sequence : Half
  fragmentIndex : Byte
  totalFragments : Byte
  ttl : Byte
  flags : Byte
  checksum : Half
  deriving DecidableEq, Repr

/-- `Message` (R21): a Header and a payload. -/
structure Message where
  header : Header
  payload : Bytes
  deriving DecidableEq, Repr

/-- `Key` (R22): the FragmentKey and the Dedup Window entry. -/
structure Key where
  sequence : Half
  senderId : DeviceId
  deriving DecidableEq, Repr

/-- What a frame of a FRAME row holds besides `version` and `msg_type`, which the row fixes (R70, R92). -/
structure FrameBody where
  senderId : DeviceId
  sequence : Half
  fragmentIndex : Byte
  totalFragments : Byte
  ttl : Byte
  flags : Byte
  checksum : Half
  payload : Bytes
  deriving DecidableEq, Repr

/-- The command record of the port (R76). A field an operation does not use is ignored by it. -/
structure CommandRecord where
  op : Byte
  hdr : RawHeader
  len : Nat
  data : Bytes
  idx : Byte
  ownId : DeviceId
  relayEn : Bool
  deriving DecidableEq, Repr

/-- What the host can present to the block: a command record, or a frame as the transport delivered it, which is
the `RECEIVE` of R91 (log entry 2). -/
inductive Input where
  | command (r : CommandRecord)
  | frame (f : Bytes)
  deriving DecidableEq, Repr

/-- The instructions: the thirteen operations of R6 and R79 (rows of format CMD) and the four classes of received
frame of R92 (rows of format FRAME). `cmd_len` is the length of the byte string an instruction carries. -/
inductive Instr where
  | reset (ownId : DeviceId) (relayEn : Bool)
  | cfgWrite (ownId : DeviceId) (relayEn : Bool)
  | serialize (h : Header)
  | deserialize (f : Bytes)
  | checksum (h : Header) (p : Bytes)
  | verify (f : Bytes)
  | fragCount (len : Nat)
  | getFragment (h : Header) (p : Bytes) (idx : Byte)
  | addFragment (h : Header) (p : Bytes)
  | process (f : Bytes)
  | shouldRelay (h : Header)
  | prepareForRelay (h : Header)
  | isForUs (h : Header)
  | frameText (b : FrameBody)
  | frameAck (b : FrameBody)
  | frameAnnounce (b : FrameBody)
  | frameRelay (b : FrameBody)
  deriving DecidableEq, Repr

end Sys2Proof
end

