-- ==== Sys2Proof/Machine/Operands.lean ====
section
/-! DEFINITION. Operand forms: byte order (`20_memory.md` R50, R51), the header layout (`30_encoding.md` R70, R93,
`40_frame_codec.md` R101, R102), message type codes (R72), keys (R22) and payload slices (R10). -/

namespace Sys2Proof.Machine

/-- `v[15:8]`, the byte at the lower offset (R50). -/
def hiByte (v : Half) : Byte := v.extractLsb' 8 8

/-- `v[7:0]`, the byte at the higher offset (R50). -/
def loByte (v : Half) : Byte := v.extractLsb' 0 8

/-- The big-endian value of two bytes, `b[i] * 256 + b[i+1]` (R11). -/
def be16 (hi lo : Byte) : Half := BitVec.ofNat 16 (hi.toNat * 256 + lo.toNat)

/-- The code of a message type on the wire (R72). -/
def typeCode : MsgType → Byte
  | .text => 1
  | .ack => 2
  | .announce => 3
  | .relay => 4

/-- The message type of a code; every other byte is unknown (R72, R81). -/
def typeOfCode (t : Byte) : Option MsgType :=
  if t = 1 then some .text
  else if t = 2 then some .ack
  else if t = 3 then some .announce
  else if t = 4 then some .relay
  else none

/-- A Header with its type as a code. -/
def rawOf (h : Header) : RawHeader where
  version := h.version
  msgType := typeCode h.msgType
  senderId := h.senderId
  sequence := h.sequence
  fragmentIndex := h.fragmentIndex
  totalFragments := h.totalFragments
  ttl := h.ttl
  flags := h.flags
  checksum := h.checksum

/-- The Header of raw fields whose type is `t`. -/
def headerWith (r : RawHeader) (t : MsgType) : Header where
  version := r.version
  msgType := t
  senderId := r.senderId
  sequence := r.sequence
  fragmentIndex := r.fragmentIndex
  totalFragments := r.totalFragments
  ttl := r.ttl
  flags := r.flags
  checksum := r.checksum

/-- The Header of raw fields; none when the type byte is unknown. The version may be any (R86). -/
def typedOf (r : RawHeader) : Option Header := (typeOfCode r.msgType).map (headerWith r)

/-- The 16 header bytes of the wire layout (R70, R101). -/
def headerBytes (r : RawHeader) : Bytes :=
  [r.version, r.msgType,
   r.senderId.b0, r.senderId.b1, r.senderId.b2, r.senderId.b3, r.senderId.b4, r.senderId.b5,
   hiByte r.sequence, loByte r.sequence,
   r.fragmentIndex, r.totalFragments, r.ttl, r.flags,
   hiByte r.checksum, loByte r.checksum]

/-- Operand assembly from a frame (R93): the raw header fields and the payload `b[16..n]`; none when the frame has
fewer than 16 bytes, so that no byte is read that does not exist (R17). -/
def splitFrame : Bytes → Option (RawHeader × Bytes)
  | v :: t :: s0 :: s1 :: s2 :: s3 :: s4 :: s5 :: q1 :: q0 :: i :: n :: l :: g :: c1 :: c0 :: p =>
    some ({ version := v, msgType := t, senderId := ⟨s0, s1, s2, s3, s4, s5⟩, sequence := be16 q1 q0,
            fragmentIndex := i, totalFragments := n, ttl := l, flags := g, checksum := be16 c1 c0 }, p)
  | _ => none

/-- `KeyOf(h)` (R22): no other field takes part. -/
def keyOf (h : Header) : Key := ⟨h.sequence, h.senderId⟩

/-- The half-open slice `b[lo..hi]`, empty when `lo ≥ hi` (R10). -/
def slice (b : Bytes) (lo hi : Nat) : Bytes := (b.take hi).drop lo

/-- The raw header of a frame body whose row fixes version 1 and the type (R92). -/
def bodyHeader (t : MsgType) (b : FrameBody) : RawHeader where
  version := Config.par.protocolVersion
  msgType := typeCode t
  senderId := b.senderId
  sequence := b.sequence
  fragmentIndex := b.fragmentIndex
  totalFragments := b.totalFragments
  ttl := b.ttl
  flags := b.flags
  checksum := b.checksum

/-- The bytes of a received frame of type `t` (R70). -/
def frameBytes (t : MsgType) (b : FrameBody) : Bytes := headerBytes (bodyHeader t b) ++ b.payload

/-- The frame body of raw header fields and a payload. -/
def bodyOf (r : RawHeader) (p : Bytes) : FrameBody where
  senderId := r.senderId
  sequence := r.sequence
  fragmentIndex := r.fragmentIndex
  totalFragments := r.totalFragments
  ttl := r.ttl
  flags := r.flags
  checksum := r.checksum
  payload := p

end Sys2Proof.Machine
end

