-- ==== Sys2Proof/WellFormed.lean ====
section
/-! DEFINITION. The operand ranges the command port carries (`30_encoding.md` R79, R86). -/

namespace Sys2Proof

/-- Whether every operand of an instruction lies in the range of R79. An instruction outside it cannot be
presented and has no meaning (R86, U2). -/
def Instr.wellFormed : Instr → Bool
  | .reset _ _ => true
  | .cfgWrite _ _ => true
  | .serialize _ => true
  | .deserialize f => decide (f.length ≤ Config.par.mtu)
  | .checksum _ p => decide (p.length ≤ Config.par.maxMessageSize)
  | .verify f => decide (f.length ≤ Config.par.mtu)
  | .fragCount len => decide (len ≤ Config.cmdLenMax)
  | .getFragment _ p _ => decide (p.length ≤ Config.par.maxMessageSize)
  | .addFragment _ p => decide (p.length ≤ Config.par.maxFragmentPayload)
  | .process f => decide (f.length ≤ Config.par.mtu)
  | .shouldRelay _ => true
  | .prepareForRelay _ => true
  | .isForUs _ => true
  | .frameText b => decide (Config.par.headerSize + b.payload.length ≤ Config.par.mtu)
  | .frameAck b => decide (Config.par.headerSize + b.payload.length ≤ Config.par.mtu)
  | .frameAnnounce b => decide (Config.par.headerSize + b.payload.length ≤ Config.par.mtu)
  | .frameRelay b => decide (Config.par.headerSize + b.payload.length ≤ Config.par.mtu)

/-- The operands of `i` are in range. -/
abbrev Instr.WellFormed (i : Instr) : Prop := i.wellFormed = true

end Sys2Proof
end

