-- ==== Sys2Proof/Decode.lean ====
section
/-! DEFINITION. The decoder of the command port and of received frames, total on whatever the host presents, and
after it the encoder (`30_encoding.md` R76, R79, R80, R81, R84, R86, R92, R93). -/

namespace Sys2Proof

open Sys2Proof.Machine

/-- Why an input selects no operation. -/
inductive DecodeError where
  /-- `cmd_op` is in no row of R79 (R84, U1). -/
  | unassignedCommand (op : Byte)
  /-- `cmd_hdr.msg_type` is outside 1 to 4 and the operation uses `cmd_hdr` (R86, U2). -/
  | messageType (t : Byte)
  /-- `cmd_data` is not exactly `cmd_len` bytes and the operation uses both (R76). -/
  | dataLength (len : Nat)
  /-- A length lies above the operation's bound (R79, R86, U2). -/
  | operandRange
  deriving DecidableEq, Repr

/-- The thirteen operations (R6). -/
inductive Op where
  | reset | cfgWrite
  | serialize | deserialize | checksum | verify
  | fragCount | getFragment | addFragment
  | process
  | shouldRelay | prepareForRelay | isForUs
  deriving DecidableEq, Repr

/-- A CMD row of the opcode table: `cmd_op` and the operation it selects. -/
structure CommandRow where
  code : Byte
  op : Op
  deriving DecidableEq, Repr

/-- The command codes (R79). -/
def commandRows : List CommandRow :=
  [⟨0x00, .reset⟩, ⟨0x01, .cfgWrite⟩,
   ⟨0x10, .serialize⟩, ⟨0x11, .deserialize⟩, ⟨0x12, .checksum⟩, ⟨0x13, .verify⟩,
   ⟨0x20, .fragCount⟩, ⟨0x21, .getFragment⟩, ⟨0x22, .addFragment⟩,
   ⟨0x30, .process⟩,
   ⟨0x40, .shouldRelay⟩, ⟨0x41, .prepareForRelay⟩, ⟨0x42, .isForUs⟩]

/-- The operation a `cmd_op` selects; none for a code outside the table (R84). -/
def opOfCode (c : Byte) : Option Op := (commandRows.find? (fun r => r.code == c)).map (·.op)

/-- Reads `cmd_hdr`. -/
def withHeader (r : CommandRecord) (k : Header → Except DecodeError Instr) : Except DecodeError Instr :=
  match typedOf r.hdr with
  | some h => k h
  | none => .error (.messageType r.hdr.msgType)

/-- Reads `cmd_data`, which holds exactly `cmd_len` bytes. -/
def withData (r : CommandRecord) (k : Bytes → Except DecodeError Instr) : Except DecodeError Instr :=
  if r.data.length = r.len then k r.data else .error (.dataLength r.len)

/-- The instruction of a command record, its ranges unchecked. -/
def readCommand (r : CommandRecord) : Except DecodeError Instr :=
  match opOfCode r.op with
  | none => .error (.unassignedCommand r.op)
  | some .reset => .ok (.reset r.ownId r.relayEn)
  | some .cfgWrite => .ok (.cfgWrite r.ownId r.relayEn)
  | some .serialize => withHeader r fun h => .ok (.serialize h)
  | some .deserialize => withData r fun f => .ok (.deserialize f)
  | some .checksum => withHeader r fun h => withData r fun p => .ok (.checksum h p)
  | some .verify => withData r fun f => .ok (.verify f)
  | some .fragCount => .ok (.fragCount r.len)
  | some .getFragment => withHeader r fun h => withData r fun p => .ok (.getFragment h p r.idx)
  | some .addFragment => withHeader r fun h => withData r fun p => .ok (.addFragment h p)
  | some .process => withData r fun f => .ok (.process f)
  | some .shouldRelay => withHeader r fun h => .ok (.shouldRelay h)
  | some .prepareForRelay => withHeader r fun h => .ok (.prepareForRelay h)
  | some .isForUs => withHeader r fun h => .ok (.isForUs h)

/-- The FRAME row's instruction of a message type (R92). -/
def frameInstr : MsgType → FrameBody → Instr
  | .text, b => .frameText b
  | .ack, b => .frameAck b
  | .announce, b => .frameAnnounce b
  | .relay, b => .frameRelay b

/-- The instruction of a delivered frame: the FRAME row its first two bytes match, and for the illegal frames of R80
and R81, which match no row, and for a frame shorter than a header, the PROCESS command itself on those bytes (R91). -/
def readFrame (f : Bytes) : Instr :=
  match splitFrame f with
  | none => .process f
  | some (r, p) =>
    if r.version = Config.par.protocolVersion then
      match typeOfCode r.msgType with
      | some t => frameInstr t (bodyOf r p)
      | none => .process f
    else .process f

/-- The instruction of whatever the host presents, its ranges unchecked. -/
def readInput : Input → Except DecodeError Instr
  | .command r => readCommand r
  | .frame f => .ok (readFrame f)

/-- The decoder: every input is a well-formed instruction or is rejected by name. -/
def decode (inp : Input) : Except DecodeError Instr :=
  match readInput inp with
  | .ok i => if i.wellFormed then .ok i else .error .operandRange
  | .error e => .error e

/-- The header a record carries where nothing says which: every bit 0 but those of `msg_type`, which has no
value 0 on the port (R86) and stands at its least code, 1 (log entry 4). -/
def blankHeader : RawHeader where
  version := 0
  msgType := 1
  senderId := ⟨0, 0, 0, 0, 0, 0⟩
  sequence := 0
  fragmentIndex := 0
  totalFragments := 0
  ttl := 0
  flags := 0
  checksum := 0

/-- A command record with nothing but its `cmd_op`. -/
def blankCommand (op : Byte) : CommandRecord where
  op := op
  hdr := blankHeader
  len := 0
  data := []
  idx := 0
  ownId := ⟨0, 0, 0, 0, 0, 0⟩
  relayEn := false

/-- The encoder: the command record, or the frame's bytes, of an instruction. Fields the operation ignores are blank. -/
def encode : Instr → Input
  | .reset o e => .command { blankCommand 0x00 with ownId := o, relayEn := e }
  | .cfgWrite o e => .command { blankCommand 0x01 with ownId := o, relayEn := e }
  | .serialize h => .command { blankCommand 0x10 with hdr := rawOf h }
  | .deserialize f => .command { blankCommand 0x11 with len := f.length, data := f }
  | .checksum h p => .command { blankCommand 0x12 with hdr := rawOf h, len := p.length, data := p }
  | .verify f => .command { blankCommand 0x13 with len := f.length, data := f }
  | .fragCount n => .command { blankCommand 0x20 with len := n }
  | .getFragment h p i =>
    .command { blankCommand 0x21 with hdr := rawOf h, len := p.length, data := p, idx := i }
  | .addFragment h p => .command { blankCommand 0x22 with hdr := rawOf h, len := p.length, data := p }
  | .process f => .command { blankCommand 0x30 with len := f.length, data := f }
  | .shouldRelay h => .command { blankCommand 0x40 with hdr := rawOf h }
  | .prepareForRelay h => .command { blankCommand 0x41 with hdr := rawOf h }
  | .isForUs h => .command { blankCommand 0x42 with hdr := rawOf h }
  | .frameText b => .frame (frameBytes .text b)
  | .frameAck b => .frame (frameBytes .ack b)
  | .frameAnnounce b => .frame (frameBytes .announce b)
  | .frameRelay b => .frame (frameBytes .relay b)

/-- What the host presents for a word of `opcode_table.json`: 8 bits are the `cmd_op` of a CMD row, with blank
operands; 16 bits are the first two bytes of a FRAME row's frame, taken as one big-endian value (R92), before 14
header bytes of zeros. -/
def tableInput (nbits w : Nat) : Input :=
  if nbits ≤ 8 then .command (blankCommand (BitVec.ofNat 8 w))
  else .frame (hiByte (BitVec.ofNat 16 w) :: loByte (BitVec.ofNat 16 w) :: List.replicate 14 0)

/-- The instruction the decoder reads from a word of the opcode table. -/
def decodeTableWord (nbits w : Nat) : Option Instr := (decode (tableInput nbits w)).toOption

end Sys2Proof
end

