-- ==== Sys2Proof/Machine/Crc.lean ====
section
/-! DEFINITION. `Crc16` (`40_frame_codec.md` R104, `20_memory.md` R52). -/

namespace Sys2Proof.Machine

/-- One bitwise step: the top bit is tested before the shift that discards it (R104, D6). -/
def crcStep (r : Half) : Half :=
  if r.getLsbD 15 then (r <<< 1) ^^^ Config.par.crcPoly else r <<< 1

/-- Eight steps. -/
def crcEight (r : Half) : Half :=
  crcStep (crcStep (crcStep (crcStep (crcStep (crcStep (crcStep (crcStep r)))))))

/-- One byte, XORed into bits 15:8 before the eight steps. -/
def crcByte (r : Half) (b : Byte) : Half := crcEight (r ^^^ BitVec.ofNat 16 (b.toNat * 256))

/-- `Crc16(d)`: no reflection and no final XOR (R104). -/
def crc16 (d : Bytes) : Half := d.foldl crcByte Config.par.crcInit

end Sys2Proof.Machine
end

