-- ==== Sys2Proof/Machine/State.lean ====
section
/-! DEFINITION. The state of the block (`10_state.md` R27 to R45), its responses (`30_encoding.md` R77, R78), the reasons a
step can stop, and the state after power-on. -/

namespace Sys2Proof.Machine

/-- A `FragmentBuffer` (R30): the reassembly state of one FragmentKey. -/
structure FragmentBuffer where
  key : Key
  /-- The originating header: that of the fragment whose arrival created the buffer (R31). -/
  header : Header
  /-- `slots[0]` to `slots[7]`; a slot that holds an empty byte string is filled (R30). -/
  slots : List (Option Bytes)
  receivedCount : Nat
  totalExpected : Byte
  deriving DecidableEq, Repr

/-- The response record (R77), as a sum, so that the fields R78 does not name for a status do not exist (U8).
`rsp_len` is the length of the bytes; the status codes are `Machine.statusCode`. -/
inductive Response where
  /-- `OK` without a result: RESET, CFG_WRITE. -/
  | ok
  /-- `OK` with `rsp_hdr`: DESERIALIZE, PREPARE_FOR_RELAY. -/
  | okHeader (h : Header)
  /-- `OK` with `rsp_len` and `rsp_data`: SERIALIZE, GET_FRAGMENT. -/
  | okData (d : Bytes)
  /-- `OK` with `rsp_val`: CHECKSUM, VERIFY, FRAG_COUNT, SHOULD_RELAY, IS_FOR_US. -/
  | okVal (v : Half)
  /-- `OK` with `rsp_hdr`, `rsp_len` and `rsp_data`: ADD_FRAGMENT's `Complete`, PROCESS's `Some(Message)`. -/
  | okMessage (m : Message)
  /-- `NONE`. -/
  | none
  /-- `INCOMPLETE`. -/
  | incomplete
  /-- `ERR_INVALID_MESSAGE`. -/
  | errInvalidMessage
  /-- `ERR_CHECKSUM`. -/
  | errChecksum
  /-- `ERR_FRAGMENTATION`. -/
  | errFragmentation
  /-- `ERR_MESSAGE_TOO_LARGE`. -/
  | errMessageTooLarge
  deriving DecidableEq, Repr

/-- The block has no fault: every operation ends in a response (R18, R201). Nothing raises one, so the type is empty. -/
inductive Fault where
  deriving DecidableEq, Repr

/-- Why a step gives an input no meaning. -/
inductive Refusal where
  /-- An instruction without a meaning in this model: raised by `exec`'s refused arms, of which there are none. Safe. -/
  | notModelled (mnemonic : String)
  /-- `cmd_op` outside the table of R79: raised by the step on a command record (R84, U1). Safe. -/
  | unassignedCommand (op : Byte)
  /-- `cmd_hdr.msg_type` outside 1 to 4: raised by the step on a command record that uses its header (R86, U2). Safe. -/
  | messageType (t : Byte)
  /-- `cmd_data` not of `cmd_len` bytes: raised by the step on a command record that uses its data (R76). Safe. -/
  | dataLength (len : Nat)
  /-- A length above the operation's bound: raised by the step on an input, and by a meaning on an instruction that
  is not well formed (R86, D8, U2). Safe. -/
  | operandRange
  deriving DecidableEq, Repr

/-- The state: the persistent tuple of R40, and two fields of the model's own for the two ports. -/
structure State where
  /-- `OWN_ID` (R27). -/
  ownId : DeviceId
  /-- `RELAY_EN` (R28). -/
  relayEn : Bool
  /-- `FT`, the Fragment Table, oldest buffer first (R34). -/
  ft : List FragmentBuffer
  /-- `RXW`, the receive window, oldest key first (R37). -/
  rxw : List Key
  /-- `RLW`, the relay window, oldest key first (R38). -/
  rlw : List Key
  /-- The model's own: what the host will present, in its order, next first (R25, log entry 1). -/
  pending : List Input
  /-- The model's own: the answer to the last completed command; no operation reads it (R24, log entry 1). -/
  response : Option Response
  deriving DecidableEq, Repr

/-- `s` with the answer to the command that just completed. -/
def State.withResponse (s : State) (r : Response) : State := { s with response := some r }

/-- `s` with both control registers written (they are always written together, R171). -/
def State.withConfig (s : State) (o : DeviceId) (e : Bool) : State := { s with ownId := o, relayEn := e }

/-- `s` with the Fragment Table `t`. -/
def State.withFt (s : State) (t : List FragmentBuffer) : State := { s with ft := t }

/-- `s` with the receive window `w`. -/
def State.withRxw (s : State) (w : List Key) : State := { s with rxw := w }

/-- `s` with the relay window `w`. -/
def State.withRlw (s : State) (w : List Key) : State := { s with rlw := w }

/-- `s` with other inputs still to be presented. -/
def State.withPending (s : State) (p : List Input) : State := { s with pending := p }

/-- Power-on (R45, R170): the three tables are empty; `OWN_ID` and `RELAY_EN` are unspecified (U7), so they are
arguments here, and a claim about power-on quantifies over both. -/
def State.powerOn (o : DeviceId) (e : Bool) : State where
  ownId := o
  relayEn := e
  ft := []
  rxw := []
  rlw := []
  pending := []
  response := none

/-- The machine right after reset: power-on, with the two registers the spec leaves unspecified at zero
(DESIGN CHOICE, log entry 3). -/
def State.reset : State := State.powerOn ⟨0, 0, 0, 0, 0, 0⟩ false

end Sys2Proof.Machine
end

