-- ==== Sys2Proof/Machine/Flags.lean ====
section
/-! DEFINITION. The block has no condition codes and no status flags (`10_state.md` R26). What stands here: the response
status codes (`30_encoding.md` R77) and the two header bytes PREPARE_FOR_RELAY rewrites (`43_relay_policy.md` R165). -/

namespace Sys2Proof.Machine

/-- `rsp_status` (R77). Bit 7 is 1 exactly for the errors. -/
def statusCode : Response → Byte
  | .ok => 0x00
  | .okHeader _ => 0x00
  | .okData _ => 0x00
  | .okVal _ => 0x00
  | .okMessage _ => 0x00
  | .none => 0x01
  | .incomplete => 0x02
  | .errInvalidMessage => 0x80
  | .errChecksum => 0x81
  | .errFragmentation => 0x82
  | .errMessageTooLarge => 0x83

/-- A boolean result as `rsp_val`: 1 for true, 0 for false (R78). -/
def boolVal (b : Bool) : Half := if b then 1 else 0

/-- The mask of "has been relayed", bit 0 of `flags` (R74, D7). -/
def relayedMask : Byte := 0x01

/-- `flags or 0x01`; bits 7 to 1 are carried (R82, R165). -/
def setRelayed (flags : Byte) : Byte := flags ||| relayedMask

/-- `max(ttl - 1, 0)`: it never wraps (R16 (b), R165). -/
def decrementTtl (ttl : Byte) : Byte := if ttl = 0 then 0 else ttl - 1

end Sys2Proof.Machine
end

