-- ==== Sys2Proof/Machine/Ops.lean ====
section
/-! DEFINITION. The shared operations over the state: answering a command, the codec functions, the window primitives,
the fragment engine, the receive pipeline, and the relay decision. Every meaning is one of these, applied. -/

namespace Sys2Proof.Machine

/-- What one step can answer. -/
abbrev Result := Host.Outcome State Fault Refusal

/-! ### The ports -/

/-- The end of every operation: the response is the answer to this command, and the block is ready for the next. An
error is answered like a success: nothing is saved, no mode changes, there is no handler and no return from it
(R190, R198, R202). -/
def respond (s : State) (r : Response) : Result := .next (s.withResponse r)

/-- An instruction whose operands are out of range cannot be presented, and has no meaning (R86). -/
def presented (i : Instr) (k : Result) : Result := if i.wellFormed then k else .refused .operandRange

/-- The host's next input, and the state without it; none when the host presents nothing. -/
def takeInput (s : State) : Option (Input × State) :=
  match s.pending with
  | [] => none
  | inp :: rest => some (inp, s.withPending rest)

/-- The block awaits the next command: nothing changes (R198, R218). -/
def idle (s : State) : Result := .next s

/-- An input that selects no operation is refused and changes no state (R84, R86). -/
def refuse : DecodeError → Result
  | .unassignedCommand op => .refused (.unassignedCommand op)
  | .messageType t => .refused (.messageType t)
  | .dataLength n => .refused (.dataLength n)
  | .operandRange => .refused .operandRange

/-- `s` with the input of an opcode table word presented next. -/
def presentTableWord (s : State) (nbits w : Nat) : State := s.withPending (tableInput nbits w :: s.pending)

/-! ### Frame codec (R101 to R106) -/

/-- `Serialize(h)`: it neither validates nor computes a checksum (R101). -/
def serialize (h : Header) : Bytes := headerBytes (rawOf h)

/-- `Deserialize(b, n)`; none is `InvalidMessage` (R102). -/
def deserialize (b : Bytes) : Option Header :=
  match splitFrame b with
  | none => none
  | some (r, _) => if r.version = Config.par.protocolVersion then typedOf r else none

/-- `FrameChecksum(f)`, over everything but bytes 14 and 15 (R105). -/
def frameChecksum (f : Bytes) : Half := crc16 (f.take 14 ++ f.drop 16)

/-- `Checksum(h, p)`: the header's own checksum field does not enter (R105). -/
def headerChecksum (h : Header) (p : Bytes) : Half := crc16 ((serialize h).take 14 ++ p)

/-- `be16(f, 14)`, the stored checksum of a frame of at least 16 bytes (R75). -/
def storedChecksum (f : Bytes) : Half := be16 (f.getD 14 0) (f.getD 15 0)

/-- `Verify(f, n)`: false below 16 bytes (D17); it looks at neither version nor type (R106). -/
def verify (f : Bytes) : Bool :=
  if f.length < Config.par.headerSize then false else frameChecksum f == storedChecksum f

/-! ### Dedup windows (R141, R142) -/

/-- `Contains(W, k)`: equality of keys and nothing else; it changes nothing (R141). -/
def contains (w : List Key) (k : Key) : Bool :=
  w.any fun e => e.sequence == k.sequence && e.senderId == k.senderId

/-- `Record(W, cap, k)`: the oldest entry leaves a full window, `k` becomes the youngest (R142). -/
def record (w : List Key) (cap : Nat) (k : Key) : List Key :=
  (if cap ≤ w.length then w.drop 1 else w) ++ [k]

/-! ### Fragment engine, transmit side (R122, R124) -/

/-- `FragCount(L)`, on mathematical integers; none is `MessageTooLarge` (R122, D16). -/
def fragCount (len : Nat) : Option Nat :=
  let n := if len = 0 then 1
    else (len + Config.par.maxFragmentPayload - 1) / Config.par.maxFragmentPayload
  if Config.par.maxFragments < n then none else some n

/-- A frame with its two checksum bytes overwritten by the CRC of the rest (R124). -/
def sealFrame (f : Bytes) : Bytes :=
  (f.set 14 (hiByte (frameChecksum f))).set 15 (loByte (frameChecksum f))

/-- The header clone of fragment `idx` of `n`; its checksum is overwritten when the frame is sealed (R125). -/
def fragmentHeader (h : Header) (idx : Byte) (n : Nat) : Header :=
  { h with fragmentIndex := idx, totalFragments := BitVec.ofNat 8 n }

/-- The payload slice of fragment `idx` (R93, R124). -/
def fragmentSlice (p : Bytes) (idx : Nat) : Bytes :=
  slice p (idx * Config.par.maxFragmentPayload) (min ((idx + 1) * Config.par.maxFragmentPayload) p.length)

/-- `GetFragment(h, p, idx)` (R124). -/
def getFragment (h : Header) (p : Bytes) (idx : Byte) : Response :=
  match fragCount p.length with
  | none => .errMessageTooLarge
  | some n =>
    if n ≤ idx.toNat then .none
    else .okData (sealFrame (serialize (fragmentHeader h idx n) ++ fragmentSlice p idx.toNat))

/-! ### Fragment engine, receive side (R126 to R136) -/

/-- `Find(FT, k)`; it changes nothing, not the buffer's age either (R126). -/
def find (t : List FragmentBuffer) (k : Key) : Option FragmentBuffer := t.find? fun b => b.key == k

/-- What a slot holds; none when it is empty. -/
def slotAt (b : FragmentBuffer) (j : Nat) : Option Bytes := (b.slots[j]?).join

/-- The buffer a fragment with header `h` and a new key creates (R31). -/
def newBuffer (h : Header) : FragmentBuffer where
  key := keyOf h
  header := h
  slots := List.replicate Config.par.maxFragments none
  receivedCount := 0
  totalExpected := h.totalFragments

/-- The table with room for one more: the oldest buffer leaves a full table with all it held (R35, R129). -/
def makeRoom (t : List FragmentBuffer) : List FragmentBuffer :=
  if Config.par.fragTableCap ≤ t.length then t.drop 1 else t

/-- Lookup, eviction, creation (R129): the table that holds the buffer of `h`'s key, and that buffer. -/
def obtain (t : List FragmentBuffer) (h : Header) : List FragmentBuffer × FragmentBuffer :=
  match find t (keyOf h) with
  | some b => (t, b)
  | none => (makeRoom t ++ [newBuffer h], newBuffer h)

/-- Whether a fragment is rejected: by its own `total_fragments` and by the slot capacity (R128, C1). -/
def badIndex (h : Header) : Bool :=
  decide (h.totalFragments.toNat ≤ h.fragmentIndex.toNat) ||
    decide (Config.par.maxFragments ≤ h.fragmentIndex.toNat)

/-- The table after a fragment was rejected (R128). -/
def rejectTable (ro : FragRejectOrder) (t : List FragmentBuffer) (h : Header) : List FragmentBuffer :=
  match ro with
  | .checkFirst => t
  | .allocateFirst => (obtain t h).1

/-- Store, or the no-op of a duplicate index (R130, R131): the slot and the count are all that is written. -/
def storeSlice (b : FragmentBuffer) (j : Nat) (x : Bytes) : FragmentBuffer :=
  match slotAt b j with
  | none => { b with slots := b.slots.set j (some x), receivedCount := b.receivedCount + 1 }
  | some _ => b

/-- The table with the buffer of `b`'s key written back, at its place: age is creation age (R35). -/
def putBuffer (t : List FragmentBuffer) (b : FragmentBuffer) : List FragmentBuffer :=
  t.map fun x => if x.key = b.key then b else x

/-- The table without the buffer of key `k`; the others keep their order (R132). -/
def removeBuffer (t : List FragmentBuffer) (k : Key) : List FragmentBuffer := t.filter fun x => x.key != k

/-- The concatenation loop of R133 and R134 over `n` slots from `j` on, after `out`; none is the `Error` of a missing slot
or of a payload above `MAX_MESSAGE_SIZE`. -/
def joinSlots (b : FragmentBuffer) : Nat → Nat → Bytes → Option Bytes
  | 0, _, out => some out
  | n + 1, j, out =>
    match slotAt b j with
    | none => none
    | some x =>
      if Config.par.maxMessageSize < out.length + x.length then none else joinSlots b n (j + 1) (out ++ x)

/-- The three results of ADD_FRAGMENT (R14). -/
inductive AddResult where
  | complete (m : Message)
  | incomplete
  | error
  deriving DecidableEq, Repr

/-- The result of a buffer that has been removed from the table because it is complete (R133 to R136). -/
def assemble (b : FragmentBuffer) : AddResult :=
  match joinSlots b b.totalExpected.toNat 0 [] with
  | some out => .complete ⟨b.header, out⟩
  | none => .error

/-- `AddFragment(h, s)` (R127), for either `FRAG_REJECT_ORDER`: the table after it, and its result. -/
def addFragment (ro : FragRejectOrder) (t : List FragmentBuffer) (h : Header) (x : Bytes) :
    List FragmentBuffer × AddResult :=
  if badIndex h then (rejectTable ro t h, .error)
  else
    let t1 := (obtain t h).1
    let b := storeSlice (obtain t h).2 h.fragmentIndex.toNat x
    if b.receivedCount = b.totalExpected.toNat then (removeBuffer t1 b.key, assemble b)
    else (putBuffer t1 b, .incomplete)

/-- The response of ADD_FRAGMENT's result (R78). -/
def addResponse : AddResult → Response
  | .complete m => .okMessage m
  | .incomplete => .incomplete
  | .error => .errFragmentation

/-! ### Inbound processor (R144) -/

/-- Steps (f) and, under `DIRECT`, R151: the key is recorded and the Message returned without the Fragment Engine. -/
def deliverDirect (s : State) (h : Header) (p : Bytes) : State × Response :=
  (s.withRxw (record s.rxw Config.par.rxDedupCap (keyOf h)), .okMessage ⟨h, p⟩)

/-- Step (e): the Fragment Engine's result, and the record on completion only (R149, R150, R152). -/
def reassemble (ro : FragRejectOrder) (s : State) (h : Header) (p : Bytes) : State × Response :=
  match addFragment ro s.ft h p with
  | (t, .complete m) => ((s.withFt t).withRxw (record s.rxw Config.par.rxDedupCap (keyOf h)), .okMessage m)
  | (t, .incomplete) => (s.withFt t, .none)
  | (t, .error) => (s.withFt t, .errFragmentation)

/-- A checksum-correct frame with `total_fragments = 0` (R151). -/
def zeroTotal (zp : ZeroTotalPolicy) (s : State) (h : Header) (p : Bytes) : State × Response :=
  match zp with
  | .direct => deliverDirect s h p
  | .fragError => (s, .errFragmentation)
  | .invalid => (s, .errInvalidMessage)

/-- Steps (e) and (f): routing by `total_fragments` (R149, R151, R153). -/
def route (zp : ZeroTotalPolicy) (ro : FragRejectOrder) (s : State) (h : Header) (p : Bytes) : State × Response :=
  if 1 < h.totalFragments.toNat then reassemble ro s h p
  else if h.totalFragments.toNat = 1 then deliverDirect s h p
  else zeroTotal zp s h p

/-- `Process(f, n)` (R144), for every value of the two open parameters: the state after it, and its response. The
duplicate test comes before the checksum test (R147). -/
def process (zp : ZeroTotalPolicy) (ro : FragRejectOrder) (s : State) (f : Bytes) : State × Response :=
  if f.length < Config.par.headerSize then (s, .errInvalidMessage)
  else
    match deserialize f with
    | none => (s, .errInvalidMessage)
    | some h =>
      if contains s.rxw (keyOf h) then (s, .none)
      else if frameChecksum f ≠ h.checksum then (s, .errChecksum)
      else route zp ro s h (f.drop Config.par.headerSize)

/-- The receive pipeline of this block, and the answer to its command. -/
def receive (s : State) (f : Bytes) : Result :=
  respond (process Config.zeroTotalPolicy Config.fragRejectOrder s f).1
    (process Config.zeroTotalPolicy Config.fragRejectOrder s f).2

/-! ### Relay policy (R161, R165) -/

/-- The five disqualifying conditions, in the order of R161. -/
def relayBarred (s : State) (h : Header) : Bool :=
  decide (h.senderId = s.ownId) || decide (h.ttl = 0) || contains s.rlw (keyOf h) ||
    decide (h.msgType = .ack) || !s.relayEn

/-- `ShouldRelay(h)` (R161): only the path that returns true records the key (R162). -/
def shouldRelay (s : State) (h : Header) : State × Response :=
  if relayBarred s h then (s, .okVal (boolVal false))
  else (s.withRlw (record s.rlw Config.par.relayDedupCap (keyOf h)), .okVal (boolVal true))

/-- `PrepareForRelay(h)` (R165): the checksum is carried unchanged and is stale. -/
def prepareForRelay (h : Header) : Header := { h with ttl := decrementTtl h.ttl, flags := setRelayed h.flags }

/-- `IsForUs(h)`: true for every header (R167, U12). -/
def isForUs (_ : Header) : Bool := true

/-! ### System (R169) -/

/-- `Reset(own_id, relay_en)` (R169): the tables are emptied and both registers written. -/
def resetBlock (s : State) (o : DeviceId) (e : Bool) : State :=
  (((s.withFt []).withRxw []).withRlw []).withConfig o e

end Sys2Proof.Machine
end

