-- ==== Sys2Proof/Machine/FragmentEngine.lean ====
section
/-! DEFINITION. Meanings of the Fragment Engine (`41_fragment_engine.md`). -/

namespace Sys2Proof.Machine

/-- FRAG_COUNT (R122). -/
def execFragCount (len : Nat) (s : State) : Result :=
  presented (.fragCount len)
    (match fragCount len with
      | some n => respond s (.okVal (BitVec.ofNat 16 n))
      | none => respond s .errMessageTooLarge)

/-- GET_FRAGMENT (R124). -/
def execGetFragment (h : Header) (p : Bytes) (idx : Byte) (s : State) : Result :=
  presented (.getFragment h p idx) (respond s (getFragment h p idx))

/-- ADD_FRAGMENT (R127), under the block's `FRAG_REJECT_ORDER`. -/
def execAddFragment (h : Header) (p : Bytes) (s : State) : Result :=
  presented (.addFragment h p)
    (respond (s.withFt (addFragment Config.fragRejectOrder s.ft h p).1)
      (addResponse (addFragment Config.fragRejectOrder s.ft h p).2))

end Sys2Proof.Machine
end

