-- ==== Sys2Proof/Machine/FrameCodec.lean ====
section
/-! DEFINITION. Meanings of the Frame Codec (`40_frame_codec.md`): pure functions of their operands (R100). -/

namespace Sys2Proof.Machine

/-- SERIALIZE (R101). -/
def execSerialize (h : Header) (s : State) : Result :=
  presented (.serialize h) (respond s (.okData (serialize h)))

/-- DESERIALIZE (R102). -/
def execDeserialize (f : Bytes) (s : State) : Result :=
  presented (.deserialize f)
    (match deserialize f with
      | some h => respond s (.okHeader h)
      | none => respond s .errInvalidMessage)

/-- CHECKSUM (R105). -/
def execChecksum (h : Header) (p : Bytes) (s : State) : Result :=
  presented (.checksum h p) (respond s (.okVal (headerChecksum h p)))

/-- VERIFY (R106): a wrong checksum is the answer false, not an error. -/
def execVerify (f : Bytes) (s : State) : Result :=
  presented (.verify f) (respond s (.okVal (boolVal (verify f))))

end Sys2Proof.Machine
end

