-- ==== Sys2Proof/Machine/InboundProcessor.lean ====
section
/-! DEFINITION. Meanings of the Inbound Processor (`42_inbound_processor.md`): the PROCESS command, and the four classes
of received frame, each of which the host hands to PROCESS (`30_encoding.md` R91, R92, log entry 2). -/

namespace Sys2Proof.Machine

/-- PROCESS (R144). -/
def execProcess (f : Bytes) (s : State) : Result := presented (.process f) (receive s f)

/-- A received frame of type Text (R72, R92). -/
def execFrameText (b : FrameBody) (s : State) : Result :=
  presented (.frameText b) (receive s (frameBytes .text b))

/-- A received frame of type Ack (R72, R92). -/
def execFrameAck (b : FrameBody) (s : State) : Result :=
  presented (.frameAck b) (receive s (frameBytes .ack b))

/-- A received frame of type Announce (R72, R92). -/
def execFrameAnnounce (b : FrameBody) (s : State) : Result :=
  presented (.frameAnnounce b) (receive s (frameBytes .announce b))

/-- A received frame of type Relay (R72, R92). -/
def execFrameRelay (b : FrameBody) (s : State) : Result :=
  presented (.frameRelay b) (receive s (frameBytes .relay b))

end Sys2Proof.Machine
end

