-- ==== Sys2Proof/Machine/RelayPolicy.lean ====
section
/-! DEFINITION. Meanings of the Relay Policy and of the two system operations (`43_relay_policy.md`). -/

namespace Sys2Proof.Machine

/-- SHOULD_RELAY (R161). -/
def execShouldRelay (h : Header) (s : State) : Result :=
  presented (.shouldRelay h) (respond (shouldRelay s h).1 (shouldRelay s h).2)

/-- PREPARE_FOR_RELAY (R165). -/
def execPrepareForRelay (h : Header) (s : State) : Result :=
  presented (.prepareForRelay h) (respond s (.okHeader (prepareForRelay h)))

/-- IS_FOR_US (R167). -/
def execIsForUs (h : Header) (s : State) : Result :=
  presented (.isForUs h) (respond s (.okVal (boolVal (isForUs h))))

/-- RESET (R169). -/
def execReset (o : DeviceId) (e : Bool) (s : State) : Result :=
  presented (.reset o e) (respond (resetBlock s o e) .ok)

/-- CFG_WRITE (R171): the tables and windows are left as they are. -/
def execCfgWrite (o : DeviceId) (e : Bool) (s : State) : Result :=
  presented (.cfgWrite o e) (respond (s.withConfig o e) .ok)

end Sys2Proof.Machine
end

