-- ==== Sys2Proof/Machine/Dispatch.lean ====
section
/-! DEFINITION. One arm per instruction. -/

namespace Sys2Proof.Machine

def exec (i : Instr) (s : State) : Host.Outcome State Fault Refusal :=
  match i with
  | .reset o e => Sys2Proof.Machine.execReset o e s
  | .cfgWrite o e => Sys2Proof.Machine.execCfgWrite o e s
  | .serialize h => Sys2Proof.Machine.execSerialize h s
  | .deserialize f => Sys2Proof.Machine.execDeserialize f s
  | .checksum h p => Sys2Proof.Machine.execChecksum h p s
  | .verify f => Sys2Proof.Machine.execVerify f s
  | .fragCount n => Sys2Proof.Machine.execFragCount n s
  | .getFragment h p j => Sys2Proof.Machine.execGetFragment h p j s
  | .addFragment h p => Sys2Proof.Machine.execAddFragment h p s
  | .process f => Sys2Proof.Machine.execProcess f s
  | .shouldRelay h => Sys2Proof.Machine.execShouldRelay h s
  | .prepareForRelay h => Sys2Proof.Machine.execPrepareForRelay h s
  | .isForUs h => Sys2Proof.Machine.execIsForUs h s
  | .frameText b => Sys2Proof.Machine.execFrameText b s
  | .frameAck b => Sys2Proof.Machine.execFrameAck b s
  | .frameAnnounce b => Sys2Proof.Machine.execFrameAnnounce b s
  | .frameRelay b => Sys2Proof.Machine.execFrameRelay b s

end Sys2Proof.Machine
end

