-- ==== Sys2Proof/Machine/Step.lean ====
section
/-! DEFINITION. One step: one whole operation on the host's next input (`00_scope.md` R18, `20_memory.md` R57, R60). -/

namespace Sys2Proof.Machine

/-- Takes the host's next input, decodes it and runs it to its end; with no input the block stays as it is, and an
input that selects no operation is refused. -/
def step (s : State) : Host.Outcome State Fault Refusal :=
  match takeInput s with
  | none => idle s
  | some (inp, s1) =>
    match decode inp with
    | .ok i => exec i s1
    | .error e => refuse e

/-- `s` with the input of an opcode table word presented next, before what the host would have presented. -/
def State.withFetchWord (s : State) (nbits w : Nat) : State := presentTableWord s nbits w

end Sys2Proof.Machine
end

