-- ==== Sys2Proof/Machine/HostSide.lean ====
section
/-! DEFINITION. The host software around the block (`44_host_software.md`) and the pseudo-operations `SEND` and `RECEIVE`
(`30_encoding.md` R91). None of it is an operation of the block; it is what supplies the block's operands (R181, R184)
and what happens to its responses. A text stands here as its UTF-8 bytes. -/

namespace Sys2Proof.Machine

/-! ### Commands in the host's order -/

/-- The bytes a response carries, `rsp_data` (R77). -/
def responseBytes : Response → Bytes
  | .okData d => d
  | .okMessage m => m.payload
  | _ => []

/-- The next state of a step that has one. -/
def nextState : Result → Option State
  | .next s => some s
  | .fault _ => none
  | .refused _ => none

/-- The response of a step that has a next state. -/
def responseOf (r : Result) : Option Response := (nextState r).bind (·.response)

/-- Commands in the host's order, each run to its end before the next (R60): the responses and the last state; none
as soon as one of them is refused. -/
def runCommands : List Instr → State → Option (List Response × State)
  | [], s => some ([], s)
  | i :: is, s =>
    match exec i s with
    | .next t =>
      match t.response, runCommands is t with
      | some r, some (rs, u) => some (r :: rs, u)
      | _, _ => none
    | .fault _ => none
    | .refused _ => none

/-! ### What the host supplies and what it makes of a payload -/

/-- The successor of a sequence number: 0xFFFF wraps to 0 (R16 (a), R222). -/
def nextSequence (q : Half) : Half := q + 1

/-- The header of a Message the host creates (R181, D19). -/
def createdHeader (t : MsgType) (sender : DeviceId) (q : Half) : Header where
  version := Config.par.protocolVersion
  msgType := t
  senderId := sender
  sequence := q
  fragmentIndex := 0
  totalFragments := 1
  ttl := Config.par.defaultTtl
  flags := 0
  checksum := 0

/-- Text `create`: none is the error of a text above `MAX_MESSAGE_SIZE` bytes (R179). -/
def createText (sender : DeviceId) (q : Half) (text : Bytes) : Option Message :=
  if text.length ≤ Config.par.maxMessageSize then some ⟨createdHeader .text sender q, text⟩ else none

/-- `create_announce`: an empty name stands for the host's default string (R180). -/
def createAnnounce (sender : DeviceId) (q : Half) (name : Bytes) : Message :=
  ⟨createdHeader .announce sender q, if name = [] then Config.defaultAnnounceName else name⟩

/-- Whether `b` lies in `lo` to `hi`. -/
def inRange (lo hi b : Byte) : Bool := decide (lo ≤ b) && decide (b ≤ hi)

/-- The length of the well-formed UTF-8 sequence a byte string begins with, 0 when there is none (PRESUMED, log
entry 8). -/
def utf8Length : Bytes → Nat
  | [] => 0
  | a :: t =>
    if inRange 0x00 0x7F a then 1
    else match t with
    | [] => 0
    | b :: t =>
      if inRange 0xC2 0xDF a && inRange 0x80 0xBF b then 2
      else match t with
      | [] => 0
      | c :: t =>
        if (a == 0xE0 && inRange 0xA0 0xBF b || inRange 0xE1 0xEC a && inRange 0x80 0xBF b ||
            a == 0xED && inRange 0x80 0x9F b || inRange 0xEE 0xEF a && inRange 0x80 0xBF b) &&
            inRange 0x80 0xBF c then 3
        else match t with
        | [] => 0
        | d :: _ =>
          if (a == 0xF0 && inRange 0x90 0xBF b || inRange 0xF1 0xF3 a && inRange 0x80 0xBF b ||
              a == 0xF4 && inRange 0x80 0x8F b) && inRange 0x80 0xBF c && inRange 0x80 0xBF d then 4
          else 0

/-- At most `n` leading UTF-8 sequences of a byte string. -/
def textPrefix : Nat → Bytes → Bytes
  | 0, _ => []
  | n + 1, p =>
    if utf8Length p = 0 then [] else p.take (utf8Length p) ++ textPrefix n (p.drop (utf8Length p))

/-- Text `parse`: the valid leading prefix; it never fails (R178). -/
def parseText (p : Bytes) : Bytes := textPrefix p.length p

/-- What `dispatch` has the host note (R176): a Text's text, an Announce's sender and name (R180), an Ack. Where an Ack carries the sequence it acknowledges is not in the source
(N10), so the host is given the whole Message. -/
inductive HostNote where
  | text (t : Bytes)
  | sender (d : DeviceId) (name : Bytes)
  | acknowledged (m : Message)
  | nothing
  deriving DecidableEq, Repr

/-- `dispatch`'s case distinction on the four types (R176, R177). -/
def dispatchNote (m : Message) : HostNote :=
  match m.header.msgType with
  | .text => .text (parseText m.payload)
  | .announce => .sender m.header.senderId m.payload
  | .ack => .acknowledged m
  | .relay => .nothing

/-- `dispatch`'s outgoing bytes: none for every Message (R176, U12). -/
def dispatchBytes (_ : Message) : Option Bytes := none

/-! ### The pipelines (R91, R184) -/

/-- Whether the host logs an error: bit 7 of the status (R77, R91, R202). -/
def hostLogs (r : Response) : Bool := (statusCode r).getLsbD 7

/-- `SEND m` (R91): FRAG_COUNT, then GET_FRAGMENT for every index below the count. -/
def sendCommands (m : Message) : List Instr :=
  .fragCount m.payload.length ::
    (List.range ((fragCount m.payload.length).getD 0)).map
      fun j => .getFragment m.header m.payload (BitVec.ofNat 8 j)

/-- `RECEIVE f` (R91), first command. -/
def receiveCommand (f : Bytes) : Instr := .process f

/-- `RECEIVE f` after PROCESS answered: on `OK (h, p)`, and on nothing else, IS_FOR_US and then SHOULD_RELAY. -/
def afterProcess : Response → List Instr
  | .okMessage m => [.isForUs m.header, .shouldRelay m.header]
  | _ => []

/-- `RECEIVE f` after SHOULD_RELAY answered: PREPARE_FOR_RELAY when it returned 1 (R166). -/
def afterShouldRelay (h : Header) : Response → List Instr
  | .okVal v => if v = 1 then [.prepareForRelay h] else []
  | _ => []

/-- `RECEIVE f` after PREPARE_FOR_RELAY answered `h'`: `SEND (h', p)`, never the received frame itself (R225). -/
def afterPrepare (p : Bytes) : Response → List Instr
  | .okHeader h => sendCommands ⟨h, p⟩
  | _ => []

/-- What the host does as the pipelines run, in the order in which it does it. -/
inductive HostEvent where
  /-- A command was answered. -/
  | answered (r : Response)
  /-- The Message was given to `dispatch`, and this is noted. -/
  | dispatched (n : HostNote)
  /-- Bytes were given to the transport. -/
  | transmitted (f : Bytes)
  /-- The error was logged. -/
  | logged (r : Response)
  deriving DecidableEq, Repr

/-- What the host does on a response before it presents the next command (R91): a delivered Message is dispatched, an
emitted frame goes to the transport, an error is logged, and anything else calls for nothing. -/
def reaction : Response → List HostEvent
  | .okMessage m =>
    .answered (.okMessage m) :: .dispatched (dispatchNote m) :: (dispatchBytes m).toList.map .transmitted
  | .okData f => [.answered (.okData f), .transmitted f]
  | r => if hostLogs r then [.answered r, .logged r] else [.answered r]

/-- A run of commands as the host sees it. -/
def hostView (run : Option (List Response × State)) : Option (List HostEvent × State) :=
  run.map fun x => (x.1.flatMap reaction, x.2)

/-- Goes on after a run with the commands its last response calls for. -/
def continueWith (next : Response → List Instr) (run : Option (List Response × State)) :
    Option (List Response × State) :=
  run.bind fun x => (runCommands ((x.1.getLast?.map next).getD []) x.2).map fun y => (x.1 ++ y.1, y.2)

/-- The commands of the relay decision on a delivered Message (R91): IS_FOR_US, SHOULD_RELAY, and when that answered 1
PREPARE_FOR_RELAY and `SEND` of the prepared Message. -/
def relayMessage (m : Message) (s : State) : Option (List Response × State) :=
  continueWith (afterPrepare m.payload)
    (continueWith (afterShouldRelay m.header) (runCommands (afterProcess (.okMessage m)) s))

/-- The commands of `RECEIVE f`: PROCESS, and the relay decision on what it delivered. -/
def receiveRun (f : Bytes) (s : State) : Option (List Response × State) :=
  (runCommands [receiveCommand f] s).bind fun x =>
    match x.1.getLast? with
    | some (.okMessage m) => (relayMessage m x.2).map fun y => (x.1 ++ y.1, y.2)
    | _ => some x

/-- Outbound, R184: `SEND` of a Message, each frame given to the transport. -/
def sendMessage (m : Message) (s : State) : Option (List HostEvent × State) := hostView (runCommands (sendCommands m) s)

/-- Inbound, R184: `RECEIVE` of a delivered frame, in the order PROCESS, `dispatch`, IS_FOR_US, SHOULD_RELAY,
PREPARE_FOR_RELAY, `SEND`; none when the frame cannot be presented (R86). -/
def receiveFrame (f : Bytes) (s : State) : Option (List HostEvent × State) := hostView (receiveRun f s)

/-- The frames the transport delivers, in its order: the whole pipeline of one runs before the next is presented
(R60, R184, R223). The events of each frame stand by themselves. -/
def receiveFrames : List Bytes → State → Option (List (List HostEvent) × State)
  | [], s => some ([], s)
  | f :: fs, s =>
    match receiveFrame f s with
    | none => none
    | some (es, t) => (receiveFrames fs t).map fun x => (es :: x.1, x.2)

end Sys2Proof.Machine
end

