-- ==== Sys2Proof/Safety.lean ====
section
/-! DEFINITION. The terms claims use: the invariant of the state (`10_state.md` R33, R34, R36, R39). -/

namespace Sys2Proof.Machine

/-- The slots of a buffer that are filled. -/
def filledSlots (b : FragmentBuffer) : Nat := (b.slots.filter Option.isSome).length

/-- A FragmentBuffer as every operation leaves it (R30, R31, R33). A buffer whose count equals its total is the empty
one of R33, which exists only under `ALLOCATE_FIRST`. -/
abbrev BufferOk (b : FragmentBuffer) : Prop :=
  b.slots.length = Config.par.maxFragments ∧
  (∀ o ∈ b.slots, (o.getD []).length ≤ Config.par.maxFragmentPayload) ∧
  b.receivedCount = filledSlots b ∧
  b.key = keyOf b.header ∧
  b.totalExpected = b.header.totalFragments ∧
  (b.receivedCount = b.totalExpected.toNat →
    b.receivedCount = 0 ∧ Config.fragRejectOrder = .allocateFirst)

/-- The Fragment Table: bounded, keys pairwise distinct (R34). -/
abbrev TableOk (t : List FragmentBuffer) : Prop :=
  t.length ≤ Config.par.fragTableCap ∧ (t.map (·.key)).Nodup ∧ ∀ b ∈ t, BufferOk b

/-- A Dedup Window: bounded, no key twice (R36, R39). -/
abbrev WindowOk (w : List Key) (cap : Nat) : Prop := w.length ≤ cap ∧ w.Nodup

/-- What every step keeps. -/
abbrev Inv (s : State) : Prop :=
  TableOk s.ft ∧ WindowOk s.rxw Config.par.rxDedupCap ∧ WindowOk s.rlw Config.par.relayDedupCap

end Sys2Proof.Machine
end

