-- ==== Sys2Proof/Certificates/Slice0/Obligations.lean ====
section
/-! DEFINITION. The statements for the provers. Every statement about a next state writes that state out: the fields it
does not name are those of the state before. -/

open Sys2Proof Sys2Proof.Machine

/-! ### Encoding and the step -/

/-- R79, R92, R93: whatever is well formed decodes from its own encoding, with every operand at every value. -/
def Obligations.DecodeOfEncodeIsIdentity : Prop :=
  ∀ i : Instr, i.WellFormed → decode (encode i) = .ok i

/-- R92 with R80, R81, and the model's choice of log entry 2: a delivered frame decodes to the FRAME row whose
encoding is that very frame, or it is one the parser rejects and decodes to the PROCESS command on it. -/
def Obligations.FrameDecodingDropsNoBit : Prop :=
  ∀ (f : Bytes) (i : Instr), decode (.frame f) = .ok i →
    (encode i = .frame f ∧ deserialize f ≠ none) ∨ (i = .process f ∧ deserialize f = none)

/-- R79, R84, R92: six command codes with blank operands (log entry 4), one code that selects nothing, and one frame
written out whole. -/
def Obligations.SampleWordsDecode : Prop :=
  decodeTableWord 8 0x00 = some (.reset ⟨0, 0, 0, 0, 0, 0⟩ false) ∧
  decodeTableWord 8 0x01 = some (.cfgWrite ⟨0, 0, 0, 0, 0, 0⟩ false) ∧
  decodeTableWord 8 0x11 = some (.deserialize []) ∧
  decodeTableWord 8 0x13 = some (.verify []) ∧
  decodeTableWord 8 0x20 = some (.fragCount 0) ∧
  decodeTableWord 8 0x30 = some (.process []) ∧
  decodeTableWord 8 0x50 = none ∧
  decode (.frame [0x01, 0x02, 0x10, 0x20, 0x30, 0x40, 0x50, 0x60, 0x12, 0x34, 0x00, 0x01, 0x00, 0x01, 0x7C, 0xE6]) =
    .ok (.frameAck ⟨⟨0x10, 0x20, 0x30, 0x40, 0x50, 0x60⟩, 0x1234, 0, 1, 0, 1, 0x7CE6, []⟩)

/-- R57, R60: a step runs the next presented input's instruction, whole, and takes nothing but that input. That what
the host presents stands in a list is the model's choice (log entry 1). -/
def Obligations.StepRunsTheDecodedInstruction : Prop :=
  ∀ (s : State) (inp : Input) (rest : List Input) (i : Instr),
    s.pending = inp :: rest → decode inp = .ok i → step s = exec i { s with pending := rest }

/-- The model's choice (log entry 1), after R198: with nothing presented the block stays as it is. -/
def Obligations.StepWithoutInputChangesNothing : Prop :=
  ∀ s : State, s.pending = [] → step s = .next s

/-- R84 (the spec's decision D2): a command code outside the thirteen of R79 is refused, whatever the record's other
fields hold. -/
def Obligations.UnassignedCommandsAreRefused : Prop :=
  ∀ (s : State) (r : CommandRecord) (rest : List Input), s.pending = .command r :: rest →
    r.op ∉ ([0x00, 0x01, 0x10, 0x11, 0x12, 0x13, 0x20, 0x21, 0x22, 0x30, 0x40, 0x41, 0x42] : List Byte) →
    step s = .refused (.unassignedCommand r.op)

/-- R86 (the spec's decision D8): operands outside the ranges of R79 are refused: a header type outside 1 to 4 where
the header is used, a length above the operation's bound, and a delivered frame above the MTU; and, from R76 (log
entry 9), data that is not `cmd_len` bytes. Which refusal a record with several faults gets is the model's choice (log
entry 10), and so is that a frame is an input by itself (log entry 2). -/
def Obligations.OperandsOutOfRangeAreRefused : Prop :=
  ∀ (s : State) (rest : List Input),
    (∀ r : CommandRecord, s.pending = .command r :: rest →
      r.op ∈ ([0x10, 0x12, 0x21, 0x22, 0x40, 0x41, 0x42] : List Byte) →
      r.hdr.msgType ∉ ([1, 2, 3, 4] : List Byte) → step s = .refused (.messageType r.hdr.msgType)) ∧
    (∀ r : CommandRecord, s.pending = .command r :: rest → r.op ∈ ([0x11, 0x13, 0x30] : List Byte) →
      r.data.length = r.len → 244 < r.len → step s = .refused .operandRange) ∧
    (∀ r : CommandRecord, s.pending = .command r :: rest → r.op ∈ ([0x12, 0x21] : List Byte) →
      r.hdr.msgType ∈ ([1, 2, 3, 4] : List Byte) →
      r.data.length = r.len → 1024 < r.len → step s = .refused .operandRange) ∧
    (∀ r : CommandRecord, s.pending = .command r :: rest → r.op = 0x22 →
      r.hdr.msgType ∈ ([1, 2, 3, 4] : List Byte) →
      r.data.length = r.len → 228 < r.len → step s = .refused .operandRange) ∧
    (∀ r : CommandRecord, s.pending = .command r :: rest → r.op = 0x20 →
      65535 < r.len → step s = .refused .operandRange) ∧
    (∀ f : Bytes, s.pending = .frame f :: rest → 244 < f.length → step s = .refused .operandRange) ∧
    (∀ r : CommandRecord, s.pending = .command r :: rest →
      (r.op ∈ ([0x11, 0x13, 0x30] : List Byte) ∨
        r.op ∈ ([0x12, 0x21, 0x22] : List Byte) ∧ r.hdr.msgType ∈ ([1, 2, 3, 4] : List Byte)) →
      r.data.length ≠ r.len → step s = .refused (.dataLength r.len))

/-- R86 on the instructions themselves, which the model refuses too (log entry 10): exactly those whose operands are
out of range are refused. -/
def Obligations.ExecRefusesExactlyTheIllFormed : Prop :=
  ∀ (i : Instr) (s : State), exec i s = .refused .operandRange ↔ ¬ i.WellFormed

/-- R201, R18: every operation is total on every operand the port can carry, in every state: it ends in a response,
and takes no input the host still has to present. -/
def Obligations.EveryOperationEndsInAResponse : Prop :=
  ∀ (i : Instr) (s : State), i.WellFormed →
    ∃ (t : State) (r : Response), exec i s = .next t ∧ t.response = some r ∧ t.pending = s.pending

/-- R77 (the spec's own numbering): the status code of every response, and bit 7 is 1 exactly for the errors. -/
def Obligations.StatusBitSevenMarksErrors : Prop :=
  statusCode .ok = 0x00 ∧ (∀ h, statusCode (.okHeader h) = 0x00) ∧ (∀ d, statusCode (.okData d) = 0x00) ∧
  (∀ v, statusCode (.okVal v) = 0x00) ∧ (∀ m, statusCode (.okMessage m) = 0x00) ∧
  statusCode .none = 0x01 ∧ statusCode .incomplete = 0x02 ∧
  statusCode .errInvalidMessage = 0x80 ∧ statusCode .errChecksum = 0x81 ∧
  statusCode .errFragmentation = 0x82 ∧ statusCode .errMessageTooLarge = 0x83 ∧
  ∀ r : Response, (statusCode r).getLsbD 7 = true ↔
    r = .errInvalidMessage ∨ r = .errChecksum ∨ r = .errFragmentation ∨ r = .errMessageTooLarge

/-! ### Frame codec -/

/-- R101: the 16 header bytes in wire order, big-endian, nothing validated and nothing computed. -/
def Obligations.SerializeAnswersTheWireLayout : Prop :=
  ∀ (h : Header) (s : State),
    exec (.serialize h) s = .next { s with response := some (.okData
      [h.version,
       if h.msgType = .text then 1 else if h.msgType = .ack then 2 else if h.msgType = .announce then 3 else 4,
       h.senderId.b0, h.senderId.b1, h.senderId.b2, h.senderId.b3, h.senderId.b4, h.senderId.b5,
       BitVec.ofNat 8 (h.sequence.toNat / 256), BitVec.ofNat 8 (h.sequence.toNat % 256),
       h.fragmentIndex, h.totalFragments, h.ttl, h.flags,
       BitVec.ofNat 8 (h.checksum.toNat / 256), BitVec.ofNat 8 (h.checksum.toNat % 256)]) }

/-- R102: the three causes of `InvalidMessage` and no other, and otherwise every field from its bytes. -/
def Obligations.DeserializeReadsEveryField : Prop :=
  ∀ (f : Bytes) (s : State), f.length ≤ 244 →
    exec (.deserialize f) s = .next { s with response := some (
      if f.length < 16 ∨ f.getD 0 0 ≠ 1 ∨ f.getD 1 0 ∉ ([1, 2, 3, 4] : List Byte) then .errInvalidMessage
      else .okHeader
        { version := f.getD 0 0
          msgType := if f.getD 1 0 = 1 then .text else if f.getD 1 0 = 2 then .ack
            else if f.getD 1 0 = 3 then .announce else .relay
          senderId := ⟨f.getD 2 0, f.getD 3 0, f.getD 4 0, f.getD 5 0, f.getD 6 0, f.getD 7 0⟩
          sequence := BitVec.ofNat 16 ((f.getD 8 0).toNat * 256 + (f.getD 9 0).toNat)
          fragmentIndex := f.getD 10 0
          totalFragments := f.getD 11 0
          ttl := f.getD 12 0
          flags := f.getD 13 0
          checksum := BitVec.ofNat 16 ((f.getD 14 0).toNat * 256 + (f.getD 15 0).toNat) }) }

/-- R103 (which the spec derives from R101 and R102): serializing and parsing are inverse bijections between version-1
headers and the 16-byte strings that parse. -/
def Obligations.SerializeAndDeserializeAreInverse : Prop :=
  (∀ h : Header, h.version = 1 → deserialize (serialize h) = some h) ∧
  (∀ b : Bytes, b.length = 16 → b.getD 0 0 = 1 → b.getD 1 0 ∈ ([1, 2, 3, 4] : List Byte) →
    ∃ h, deserialize b = some h ∧ serialize h = b)

/-- The vectors V-FC-8 of `95_test_vectors.md`, from R104 under the spec's decision D6. -/
def Obligations.CrcOfTheSpecsVectors : Prop :=
  crc16 [] = 0xFFFF ∧ crc16 [0x41] = 0xB915 ∧ crc16 [0x00] = 0xE1F0 ∧ crc16 [0xFF] = 0xFF00 ∧
  crc16 [0x00, 0x00] = 0x1D0F ∧ crc16 [0xFF, 0xFF] = 0x0000 ∧ crc16 [0x68, 0x69] = 0x6203 ∧
  crc16 [0x31, 0x32, 0x33, 0x34, 0x35, 0x36, 0x37, 0x38, 0x39] = 0x29B1

/-- V-FC-8i, a consequence of R104 under the spec's decision D6: a byte string followed by its own CRC, high byte
first, has the CRC 0. -/
def Obligations.CrcOfStringWithItsCrcIsZero : Prop :=
  ∀ d : Bytes, crc16 (d ++ [hiByte (crc16 d), loByte (crc16 d)]) = 0

/-- R105: the CRC of header bytes 0 to 13 and the payload; the checksum field, whatever it holds, does not enter. -/
def Obligations.ChecksumCoversHeaderAndPayload : Prop :=
  ∀ (h : Header) (p : Bytes) (c : Half) (s : State), p.length ≤ 1024 →
    exec (.checksum h p) s = .next { s with response := some (.okVal (crc16 ((serialize h).take 14 ++ p))) } ∧
    exec (.checksum { h with checksum := c } p) s = exec (.checksum h p) s

/-- R106: false below 16 bytes (the spec's decision D17), else whether the stored value is the CRC of the rest; never
an error. -/
def Obligations.VerifyComparesWithStoredValue : Prop :=
  ∀ (f : Bytes) (s : State), f.length ≤ 244 →
    exec (.verify f) s = .next { s with response := some (.okVal (
      if 16 ≤ f.length ∧
          crc16 (f.take 14 ++ f.drop 16) = BitVec.ofNat 16 ((f.getD 14 0).toNat * 256 + (f.getD 15 0).toNat)
      then 1 else 0)) }

/-- R107 (the document's property, which the spec extends to every position): inverting any single bit of a frame that
verifies makes it fail, in header, checksum field and payload. -/
def Obligations.SingleBitFlipFailsVerification : Prop :=
  ∀ (f : Bytes) (j k : Nat), verify f = true → j < f.length → k < 8 →
    verify (f.set j (f.getD j 0 ^^^ BitVec.ofNat 8 (2 ^ k))) = false

/-! ### Fragment engine, transmit side -/

/-- R122 (count and comparison on mathematical integers: the spec's decision D16): `max(1, ceil(L/228))`, and
`MessageTooLarge` exactly above 1824. -/
def Obligations.FragCountAnswersCeiling : Prop :=
  ∀ (len : Nat) (s : State), len ≤ 65535 →
    exec (.fragCount len) s = .next { s with response := some (
      if 1824 < len then .errMessageTooLarge
      else .okVal (BitVec.ofNat 16 (max 1 ((len + 227) / 228)))) }

/-- R124: `NONE` from the count on; otherwise the header clone with the index, the count and the frame's own CRC,
followed by the slice. -/
def Obligations.GetFragmentBuildsTheFrame : Prop :=
  ∀ (h : Header) (p : Bytes) (idx : Byte) (s : State), p.length ≤ 1024 →
    exec (.getFragment h p idx) s = .next { s with response := some (
      if max 1 ((p.length + 227) / 228) ≤ idx.toNat then .none
      else .okData (serialize
          { h with
            fragmentIndex := idx
            totalFragments := BitVec.ofNat 8 (max 1 ((p.length + 227) / 228))
            checksum := crc16 ((serialize
              { h with
                fragmentIndex := idx
                totalFragments := BitVec.ofNat 8 (max 1 ((p.length + 227) / 228)) }).take 14 ++
                (p.drop (228 * idx.toNat)).take 228) } ++
        (p.drop (228 * idx.toNat)).take 228)) }

/-- R125, R124, with R121 (derived by the spec from the parameters): an emitted frame is at most the MTU, verifies,
and, cloned from a version-1 header, parses to a valid header that keeps the message's sender, sequence, type, ttl and
flags. -/
def Obligations.EmittedFramesAreValid : Prop :=
  ∀ (h : Header) (p : Bytes) (idx : Byte) (s t : State) (f : Bytes), p.length ≤ 1024 → h.version = 1 →
    exec (.getFragment h p idx) s = .next t → t.response = some (.okData f) →
    16 ≤ f.length ∧ f.length ≤ 244 ∧ verify f = true ∧
    ∃ g, deserialize f = some g ∧ g.fragmentIndex = idx ∧ idx.toNat < g.totalFragments.toNat ∧
      g.totalFragments.toNat ≤ 8 ∧ g.senderId = h.senderId ∧ g.sequence = h.sequence ∧
      g.msgType = h.msgType ∧ g.ttl = h.ttl ∧ g.flags = h.flags

/-! ### Fragment engine, receive side -/

/-- R128 (the spec's decisions D10 and D21): a fragment whose index is at or above its own total, or at or above 8, is
answered with the error; nothing is written, but for the allocation before the test under `ALLOCATE_FIRST`. -/
def Obligations.AddFragmentRejectsIndexOutOfRange : Prop :=
  ∀ (h : Header) (x : Bytes) (s : State), x.length ≤ 228 →
    h.totalFragments.toNat ≤ h.fragmentIndex.toNat ∨ 8 ≤ h.fragmentIndex.toNat →
    exec (.addFragment h x) s = .next { s with
      ft :=
        if Config.fragRejectOrder = .checkFirst ∨ (∃ b ∈ s.ft, b.key = ⟨h.sequence, h.senderId⟩) then s.ft
        else (if 4 ≤ s.ft.length then s.ft.drop 1 else s.ft) ++
          [{ key := ⟨h.sequence, h.senderId⟩, header := h, slots := List.replicate 8 none, receivedCount := 0,
             totalExpected := h.totalFragments }]
      response := some .errFragmentation }

/-- R129, R31, R130: the first fragment of a new key, of a message of more than one, evicts the oldest buffer of a
full table and no other, and is stored in a new youngest buffer. -/
def Obligations.AddFragmentStartsABuffer : Prop :=
  ∀ (h : Header) (x : Bytes) (s : State), x.length ≤ 228 →
    h.fragmentIndex.toNat < h.totalFragments.toNat → h.fragmentIndex.toNat < 8 → 1 < h.totalFragments.toNat →
    (∀ b ∈ s.ft, b.key ≠ ⟨h.sequence, h.senderId⟩) →
    exec (.addFragment h x) s = .next { s with
      ft := (if 4 ≤ s.ft.length then s.ft.drop 1 else s.ft) ++
        [{ key := ⟨h.sequence, h.senderId⟩, header := h,
           slots := (List.replicate 8 none).set h.fragmentIndex.toNat (some x), receivedCount := 1,
           totalExpected := h.totalFragments }]
      response := some .incomplete }

/-- R129, R132, R136 (V-FE-4): a new key's single fragment allocates, fills and removes its buffer in the one
operation. -/
def Obligations.AddFragmentCompletesASingleFragment : Prop :=
  ∀ (h : Header) (x : Bytes) (s : State), x.length ≤ 228 →
    h.fragmentIndex = 0 → h.totalFragments = 1 → (∀ b ∈ s.ft, b.key ≠ ⟨h.sequence, h.senderId⟩) →
    exec (.addFragment h x) s = .next { s with
      ft := if 4 ≤ s.ft.length then s.ft.drop 1 else s.ft
      response := some (.okMessage ⟨h, x⟩) }

/-- R131 (`Incomplete` in every case: derived by the spec from R33): a duplicate index writes nothing and answers
`INCOMPLETE`, even when the slice differs. -/
def Obligations.AddFragmentIgnoresADuplicateIndex : Prop :=
  ∀ (h : Header) (x y : Bytes) (b : FragmentBuffer) (s : State), Inv s → x.length ≤ 228 →
    h.fragmentIndex.toNat < h.totalFragments.toNat → h.fragmentIndex.toNat < 8 →
    b ∈ s.ft → b.key = ⟨h.sequence, h.senderId⟩ → b.slots[h.fragmentIndex.toNat]? = some (some y) →
    exec (.addFragment h x) s = .next { s with response := some .incomplete }

/-- R130, R35: a fragment for an empty slot that does not bring the count to the total writes the slot and the count
of its buffer, at the buffer's place in the table, and nothing else. -/
def Obligations.AddFragmentStoresIntoItsBuffer : Prop :=
  ∀ (h : Header) (x : Bytes) (b : FragmentBuffer) (s : State), Inv s → x.length ≤ 228 →
    h.fragmentIndex.toNat < h.totalFragments.toNat → h.fragmentIndex.toNat < 8 →
    b ∈ s.ft → b.key = ⟨h.sequence, h.senderId⟩ → b.slots[h.fragmentIndex.toNat]? = some none →
    b.receivedCount + 1 ≠ b.totalExpected.toNat →
    exec (.addFragment h x) s = .next { s with
      ft := s.ft.map fun c =>
        if c = b then
          { b with
            slots := b.slots.set h.fragmentIndex.toNat (some x)
            receivedCount := b.receivedCount + 1 }
        else c
      response := some .incomplete }

/-- R132, R133, R134, R136 (the spec's decisions D11 and D12): the fragment that brings the count to the total removes
the buffer; the slots below the total, joined in index order, are the payload under the originating header, unless one
is missing or they exceed 1024 bytes. -/
def Obligations.AddFragmentCompletesItsBuffer : Prop :=
  ∀ (h : Header) (x : Bytes) (b : FragmentBuffer) (s : State), Inv s → x.length ≤ 228 →
    h.fragmentIndex.toNat < h.totalFragments.toNat → h.fragmentIndex.toNat < 8 →
    b ∈ s.ft → b.key = ⟨h.sequence, h.senderId⟩ → b.slots[h.fragmentIndex.toNat]? = some none →
    b.receivedCount + 1 = b.totalExpected.toNat →
    exec (.addFragment h x) s = .next { s with
      ft := s.ft.filter fun c => decide (c ≠ b)
      response := some (
        if none ∈ (b.slots.set h.fragmentIndex.toNat (some x)).take b.totalExpected.toNat ∨
            1024 < (((b.slots.set h.fragmentIndex.toNat (some x)).take b.totalExpected.toNat).map
              (·.getD [])).flatten.length
        then .errFragmentation
        else .okMessage ⟨b.header,
          (((b.slots.set h.fragmentIndex.toNat (some x)).take b.totalExpected.toNat).map (·.getD [])).flatten⟩) }

/-- R135 (the spec's decision D9): a buffer that expects more than 8 fragments is never completed: it stays, with its
total and its originating header, whatever fragment of its key arrives. -/
def Obligations.BufferOfMoreThanEightNeverCompletes : Prop :=
  ∀ (h : Header) (x : Bytes) (b : FragmentBuffer) (s : State), Inv s → x.length ≤ 228 →
    b ∈ s.ft → b.key = ⟨h.sequence, h.senderId⟩ → 8 < b.totalExpected.toNat →
    ∃ t, exec (.addFragment h x) s = .next t ∧
      (t.response = some .incomplete ∨ t.response = some .errFragmentation) ∧
      ∃ c ∈ t.ft, c.key = b.key ∧ c.totalExpected = b.totalExpected ∧ c.header = b.header

/-- R137 (for every length: derived by the spec; the header: R136, the spec's decision D12): the fragments of one
message, given to ADD_FRAGMENT in any order on a table without its key, are answered `INCOMPLETE` for all but the
last, and the last with the message's payload, byte for byte, under the header that arrived first; no other buffer but
an evicted oldest one is lost. Each may carry any checksum. -/
def Obligations.ReassemblyInAnyOrderGivesThePayload : Prop :=
  ∀ (h : Header) (p : Bytes) (c : Nat → Half) (l : List Nat) (s : State), p.length ≤ 1024 →
    l.Perm (List.range (max 1 ((p.length + 227) / 228))) →
    (∀ b ∈ s.ft, b.key ≠ ⟨h.sequence, h.senderId⟩) →
    let n := max 1 ((p.length + 227) / 228)
    let g : Nat → Header := fun j =>
      { h with fragmentIndex := BitVec.ofNat 8 j, totalFragments := BitVec.ofNat 8 n, checksum := c j }
    runCommands (l.map fun j => .addFragment (g j) ((p.drop (228 * j)).take 228)) s =
      some (List.replicate (n - 1) .incomplete ++ [.okMessage ⟨g (l.headD 0), p⟩],
        { s with
          ft := if 4 ≤ s.ft.length then s.ft.drop 1 else s.ft
          response := some (.okMessage ⟨g (l.headD 0), p⟩) })

/-- R137, R155 (E2, E3; for every length: derived by the spec; the header: R136, the spec's decision D12): the frames
GET_FRAGMENT emits for a message, given to PROCESS in any order, are answered `NONE` for all but the last, and the
last with the payload under the header that arrived first; the key is recorded once. -/
def Obligations.SentFramesAreReceivedInAnyOrder : Prop :=
  ∀ (h : Header) (p : Bytes) (l : List Nat) (s : State), p.length ≤ 1024 → h.version = 1 →
    l.Perm (List.range (max 1 ((p.length + 227) / 228))) →
    (∀ b ∈ s.ft, b.key ≠ ⟨h.sequence, h.senderId⟩) → (⟨h.sequence, h.senderId⟩ : Key) ∉ s.rxw →
    let n := max 1 ((p.length + 227) / 228)
    let frame : Nat → Bytes := fun j => responseBytes (getFragment h p (BitVec.ofNat 8 j))
    ∃ g : Header, deserialize (frame (l.headD 0)) = some g ∧
      runCommands (l.map fun j => .process (frame j)) s =
        some (List.replicate (n - 1) .none ++ [.okMessage ⟨g, p⟩],
          { s with
            ft := if n = 1 then s.ft else if 4 ≤ s.ft.length then s.ft.drop 1 else s.ft
            rxw := (if 32 ≤ s.rxw.length then s.rxw.drop 1 else s.rxw) ++ [⟨h.sequence, h.senderId⟩]
            response := some (.okMessage ⟨g, p⟩) })

/-! ### Dedup windows and the inbound processor -/

/-- R143 (derived by the spec from R141 and R142): a recorded key is found for exactly as long as fewer than `cap`
further keys have been recorded. -/
def Obligations.WindowRemembersTheLastRecords : Prop :=
  ∀ (w : List Key) (cap : Nat) (k : Key) (ks : List Key), 0 < cap → w.length ≤ cap → k ∉ w → k ∉ ks →
    (contains (ks.foldl (fun v x => record v cap x) (record w cap k)) k = true ↔ ks.length < cap)

/-- R145, R146 (rows 1 to 3 of R154): a short frame, a bad version and an unknown type are `InvalidMessage`, and no
state changes. -/
def Obligations.ProcessRejectsMalformedFrames : Prop :=
  ∀ (f : Bytes) (s : State), f.length ≤ 244 →
    f.length < 16 ∨ f.getD 0 0 ≠ 1 ∨ f.getD 1 0 ∉ ([1, 2, 3, 4] : List Byte) →
    exec (.process f) s = .next { s with response := some .errInvalidMessage }

/-- R147 (row 4): a frame whose key is in the window is dropped before its checksum is looked at; no state changes. -/
def Obligations.ProcessDropsKnownKeys : Prop :=
  ∀ (h : Header) (p : Bytes) (s : State), h.version = 1 → p.length ≤ 228 →
    (⟨h.sequence, h.senderId⟩ : Key) ∈ s.rxw →
    exec (.process (serialize h ++ p)) s = .next { s with response := some .none }

/-- R148 (row 5): a checksum mismatch is `ChecksumError` and records nothing. -/
def Obligations.ProcessReportsChecksumMismatch : Prop :=
  ∀ (h : Header) (p : Bytes) (s : State), h.version = 1 → p.length ≤ 228 →
    (⟨h.sequence, h.senderId⟩ : Key) ∉ s.rxw → crc16 ((serialize h).take 14 ++ p) ≠ h.checksum →
    exec (.process (serialize h ++ p)) s = .next { s with response := some .errChecksum }

/-- R153 (row 9): a single-fragment frame is delivered with its header unchanged, whatever its index, and its key is
recorded; the Fragment Table is not touched. -/
def Obligations.ProcessDeliversSingleFragments : Prop :=
  ∀ (h : Header) (p : Bytes) (s : State), h.version = 1 → p.length ≤ 228 →
    (⟨h.sequence, h.senderId⟩ : Key) ∉ s.rxw → crc16 ((serialize h).take 14 ++ p) = h.checksum →
    h.totalFragments = 1 →
    exec (.process (serialize h ++ p)) s = .next { s with
      rxw := (if 32 ≤ s.rxw.length then s.rxw.drop 1 else s.rxw) ++ [⟨h.sequence, h.senderId⟩]
      response := some (.okMessage ⟨h, p⟩) }

/-- R151 (row 10; the spec's open decision D20): a total of 0 is decided after the checksum, by `ZERO_TOTAL_POLICY`,
whichever of the three it is. -/
def Obligations.ProcessOfZeroTotalFollowsThePolicy : Prop :=
  ∀ (h : Header) (p : Bytes) (s : State), h.version = 1 → p.length ≤ 228 →
    (⟨h.sequence, h.senderId⟩ : Key) ∉ s.rxw → crc16 ((serialize h).take 14 ++ p) = h.checksum →
    h.totalFragments = 0 →
    exec (.process (serialize h ++ p)) s = .next (
      if Config.zeroTotalPolicy = .direct then
        { s with
          rxw := (if 32 ≤ s.rxw.length then s.rxw.drop 1 else s.rxw) ++ [⟨h.sequence, h.senderId⟩]
          response := some (.okMessage ⟨h, p⟩) }
      else if Config.zeroTotalPolicy = .fragError then { s with response := some .errFragmentation }
      else { s with response := some .errInvalidMessage })

/-- R149, R150 (rows 6 to 8): a frame of more than one fragment goes to ADD_FRAGMENT; `Complete` records the key and
returns the Message, `Incomplete` is `NONE`, `Error` is `FragmentationError`, and these two record nothing. -/
def Obligations.ProcessRoutesFragmentsToReassembly : Prop :=
  ∀ (h : Header) (p : Bytes) (s : State), h.version = 1 → p.length ≤ 228 →
    (⟨h.sequence, h.senderId⟩ : Key) ∉ s.rxw → crc16 ((serialize h).take 14 ++ p) = h.checksum →
    1 < h.totalFragments.toNat →
    ∃ t, exec (.addFragment h p) s = .next t ∧
      ((∃ m, t.response = some (.okMessage m) ∧
          exec (.process (serialize h ++ p)) s = .next { t with
            rxw := (if 32 ≤ s.rxw.length then s.rxw.drop 1 else s.rxw) ++ [⟨h.sequence, h.senderId⟩] }) ∨
        (t.response = some .incomplete ∧
          exec (.process (serialize h ++ p)) s = .next { t with response := some .none }) ∨
        (t.response = some .errFragmentation ∧ exec (.process (serialize h ++ p)) s = .next t))

/-- R155 (E5): a frame that was delivered is dropped when it comes again. -/
def Obligations.ProcessOfADeliveredFrameAgainIsNone : Prop :=
  ∀ (f : Bytes) (s t : State) (m : Message), exec (.process f) s = .next t →
    t.response = some (.okMessage m) → exec (.process f) t = .next { t with response := some .none }

/-- The model's choice (log entry 2), after R72, R91 and R92: a received frame of each of the four types is processed
as its bytes are: the four rows answer what the PROCESS command answers on the same frame. -/
def Obligations.FrameRowsAreProcessedAsTheirBytes : Prop :=
  ∀ (b : FrameBody) (s : State), b.payload.length ≤ 228 →
    ∀ ti ∈ [(MsgType.text, Instr.frameText b), (.ack, .frameAck b), (.announce, .frameAnnounce b),
        (.relay, .frameRelay b)],
      ∃ t, exec ti.2 s = .next t ∧
        exec (.process (serialize ⟨1, ti.1, b.senderId, b.sequence, b.fragmentIndex, b.totalFragments, b.ttl, b.flags,
          b.checksum⟩ ++ b.payload)) s = .next t

/-- R153, R72, and the model's choice of log entry 2: a received single-fragment frame of each of the four types, of a
new key and with the right checksum, is delivered and recorded. -/
def Obligations.FrameRowsDeliverSingleFragments : Prop :=
  ∀ (b : FrameBody) (s : State), b.payload.length ≤ 228 → b.totalFragments = 1 →
    (⟨b.sequence, b.senderId⟩ : Key) ∉ s.rxw →
    ∀ ti ∈ [(MsgType.text, Instr.frameText b), (.ack, .frameAck b), (.announce, .frameAnnounce b),
        (.relay, .frameRelay b)],
      let h : Header := ⟨1, ti.1, b.senderId, b.sequence, b.fragmentIndex, b.totalFragments, b.ttl, b.flags, b.checksum⟩
      crc16 ((serialize h).take 14 ++ b.payload) = b.checksum →
      exec ti.2 s = .next { s with
        rxw := (if 32 ≤ s.rxw.length then s.rxw.drop 1 else s.rxw) ++ [⟨b.sequence, b.senderId⟩]
        response := some (.okMessage ⟨h, b.payload⟩) }

/-! ### Relay policy and system operations -/

/-- R161, R162: five conditions answer 0 and write nothing; otherwise the key is recorded and the answer is 1. -/
def Obligations.ShouldRelayDecidesAndRecords : Prop :=
  ∀ (h : Header) (s : State),
    exec (.shouldRelay h) s = .next (
      if h.senderId = s.ownId ∨ h.ttl = 0 ∨ (⟨h.sequence, h.senderId⟩ : Key) ∈ s.rlw ∨ h.msgType = .ack ∨
          s.relayEn = false
      then { s with response := some (.okVal 0) }
      else { s with
        rlw := (if 16 ≤ s.rlw.length then s.rlw.drop 1 else s.rlw) ++ [⟨h.sequence, h.senderId⟩]
        response := some (.okVal 1) })

/-- R164 (E7): the same key offered again right after it was relayed is not relayed. -/
def Obligations.RelayedKeyIsNotRelayedAgain : Prop :=
  ∀ (h g : Header) (s t : State), exec (.shouldRelay h) s = .next t → t.response = some (.okVal 1) →
    g.sequence = h.sequence → g.senderId = h.senderId →
    exec (.shouldRelay g) t = .next { t with response := some (.okVal 0) }

/-- R163: the relay decision reads nothing but the sender, the ttl, the sequence and whether the type is Ack, and of
the state the two registers and the relay window. -/
def Obligations.RelayDecisionReadsOnlyItsInputs : Prop :=
  ∀ (h g : Header) (s u t v : State), h.senderId = g.senderId → h.sequence = g.sequence →
    (h.ttl = 0 ↔ g.ttl = 0) → (h.msgType = .ack ↔ g.msgType = .ack) →
    s.ownId = u.ownId → s.relayEn = u.relayEn → s.rlw = u.rlw →
    exec (.shouldRelay h) s = .next t → exec (.shouldRelay g) u = .next v →
    t.response = v.response ∧ t.rlw = v.rlw

/-- R165: ttl saturates at 0, bit 0 of flags is set and the other seven kept, every other field, the checksum
included, is copied. -/
def Obligations.PrepareForRelayDecrementsAndMarks : Prop :=
  ∀ (h : Header) (s : State),
    exec (.prepareForRelay h) s = .next { s with response := some (.okHeader
      { h with ttl := BitVec.ofNat 8 (h.ttl.toNat - 1), flags := h.flags ||| 0x01 }) }

/-- R167: 1, whatever the header. -/
def Obligations.IsForUsAnswersOne : Prop :=
  ∀ (h : Header) (s : State), exec (.isForUs h) s = .next { s with response := some (.okVal 1) }

/-- R169 (the spec's decision D13): the tables are emptied and both registers written. -/
def Obligations.ResetEmptiesTheTables : Prop :=
  ∀ (o : DeviceId) (e : Bool) (s : State),
    exec (.reset o e) s = .next
      { ownId := o, relayEn := e, ft := [], rxw := [], rlw := [], pending := s.pending, response := some .ok }

/-- R171 (the spec's decision D13): both registers are written; the tables are left as they are. -/
def Obligations.CfgWriteLeavesTheTables : Prop :=
  ∀ (o : DeviceId) (e : Bool) (s : State),
    exec (.cfgWrite o e) s = .next { s with ownId := o, relayEn := e, response := some .ok }

/-- R45, R170, R216 (the spec's decision D13): after power-on the three tables are empty, whatever the two registers
hold; a RESET with those operands leaves any block in that state. -/
def Obligations.PowerOnIsResetWithoutOperands : Prop :=
  ∀ (o : DeviceId) (e : Bool) (s : State),
    (State.powerOn o e).ft = [] ∧ (State.powerOn o e).rxw = [] ∧ (State.powerOn o e).rlw = [] ∧
    (State.powerOn o e).ownId = o ∧ (State.powerOn o e).relayEn = e ∧
    exec (.reset o e) s = .next { State.powerOn o e with pending := s.pending, response := some .ok }

/-- The model's choice (log entry 3; U7 leaves both registers unspecified): State.reset is the power-on state with
both registers at zero. -/
def Obligations.ResetStateIsPowerOnAtZero : Prop :=
  State.reset = State.powerOn ⟨0, 0, 0, 0, 0, 0⟩ false

/-- R58: the eight pure operations change nothing but the response, and their response depends on the operands alone.
-/
def Obligations.PureOperationsReadAndWriteNothing : Prop :=
  ∀ (i : Instr), (∃ h, i = .serialize h) ∨ (∃ f, i = .deserialize f) ∨ (∃ h p, i = .checksum h p) ∨
      (∃ f, i = .verify f) ∨ (∃ n, i = .fragCount n) ∨ (∃ h p j, i = .getFragment h p j) ∨
      (∃ h, i = .prepareForRelay h) ∨ (∃ h, i = .isForUs h) →
    i.WellFormed →
    ∃ r, ∀ s : State, exec i s = .next { s with response := some r }

/-- R58: what the operations that write state leave as it is; the FRAME rows, which are PROCESS by the model's choice
(log entry 2), likewise. -/
def Obligations.WritersLeaveTheRestOfTheState : Prop :=
  ∀ (s t : State),
    (∀ h p, exec (.addFragment h p) s = .next t → t = { s with ft := t.ft, response := t.response }) ∧
    (∀ f, exec (.process f) s = .next t → t = { s with ft := t.ft, rxw := t.rxw, response := t.response }) ∧
    (∀ b, exec (.frameText b) s = .next t ∨ exec (.frameAck b) s = .next t ∨ exec (.frameAnnounce b) s = .next t ∨
        exec (.frameRelay b) s = .next t → t = { s with ft := t.ft, rxw := t.rxw, response := t.response }) ∧
    (∀ h, exec (.shouldRelay h) s = .next t → t = { s with rlw := t.rlw, response := t.response })

/-- R58: RESET and CFG_WRITE are idempotent. -/
def Obligations.SystemOperationsAreIdempotent : Prop :=
  ∀ (o : DeviceId) (e : Bool) (s t : State),
    (exec (.reset o e) s = .next t → exec (.reset o e) t = .next t) ∧
    (exec (.cfgWrite o e) s = .next t → exec (.cfgWrite o e) t = .next t)

/-- R140, R38: PROCESS reads the receive window and the Fragment Table, and neither register nor the relay window. -/
def Obligations.ProcessReadsOnlyWindowAndTable : Prop :=
  ∀ (f : Bytes) (s u t v : State), s.rxw = u.rxw → s.ft = u.ft →
    exec (.process f) s = .next t → exec (.process f) u = .next v →
    t.response = v.response ∧ t.rxw = v.rxw ∧ t.ft = v.ft

/-- R199 (derived by the spec from R127 and R144): an error records no key in a window, and only a FragmentationError
can have changed the Fragment Table. -/
def Obligations.ErrorsRecordNoKey : Prop :=
  ∀ (i : Instr) (s t : State) (r : Response), exec i s = .next t → t.response = some r →
    r = .errInvalidMessage ∨ r = .errChecksum ∨ r = .errFragmentation ∨ r = .errMessageTooLarge →
    t.rxw = s.rxw ∧ t.rlw = s.rlw ∧ t.ownId = s.ownId ∧ t.relayEn = s.relayEn ∧
      (r ≠ .errFragmentation → t.ft = s.ft)

/-- R43, R35, R32, R129, R132: the keys of the table, oldest first, after a fragment of key `k` are those before it,
in their order; or, for a new key, those less the oldest of a full table, with `k` as the youngest; or those less `k`,
whose buffer was completed; or, for a new key's single fragment, those less the oldest of a full table. A frame that
does not parse leaves them. Using a buffer does not move it. The FRAME rows are the model's choice (log entry 2). -/
def Obligations.TableKeepsCreationOrder : Prop :=
  ∀ (s t : State),
    let keys := s.ft.map (·.key)
    let room := if 4 ≤ keys.length then keys.drop 1 else keys
    (∀ (h : Header) (p : Bytes), exec (.addFragment h p) s = .next t →
      let k : Key := ⟨h.sequence, h.senderId⟩
      (t.response = some .incomplete ∧
        t.ft.map (·.key) = if k ∈ keys then keys else room ++ [k]) ∨
      (t.response = some .errFragmentation ∧
        (t.ft.map (·.key) = keys ∨ (k ∉ keys ∧ t.ft.map (·.key) = room ++ [k]) ∨
          (k ∈ keys ∧ t.ft.map (·.key) = keys.filter (fun x => decide (x ≠ k))))) ∨
      ((∃ m, t.response = some (.okMessage m)) ∧
        t.ft.map (·.key) = if k ∈ keys then keys.filter (fun x => decide (x ≠ k)) else room)) ∧
    (∀ (i : Instr) (k : Key),
      (∃ f h, i = .process f ∧ deserialize f = some h ∧ k = ⟨h.sequence, h.senderId⟩) ∨
        (∃ b, (i = .frameText b ∨ i = .frameAck b ∨ i = .frameAnnounce b ∨ i = .frameRelay b) ∧
          k = ⟨b.sequence, b.senderId⟩) →
      exec i s = .next t →
      t.ft.map (·.key) = keys ∨
      (k ∉ keys ∧ t.ft.map (·.key) = room ++ [k] ∧
        (t.response = some .none ∨ t.response = some .errFragmentation)) ∨
      (k ∈ keys ∧ t.ft.map (·.key) = keys.filter (fun x => decide (x ≠ k)) ∧
        (t.response = some .errFragmentation ∨ ∃ m, t.response = some (.okMessage m)))) ∧
    (∀ f : Bytes, deserialize f = none → exec (.process f) s = .next t → t.ft = s.ft)

/-- R77: `rsp_len` is at most 1024, in every state. -/
def Obligations.ResponsesCarryAtMost1024Bytes : Prop :=
  ∀ (i : Instr) (s t : State) (r : Response), exec i s = .next t → t.response = some r →
    (responseBytes r).length ≤ 1024

/-! ### The invariant -/

/-- R33, R34, R36, R39, R41 (derived by the spec in part): every step, on whatever the host presents, keeps the tables
bounded, their keys distinct, every buffer's count the number of its filled slots, and no buffer complete but the
empty one of R33. -/
def Obligations.EveryStepKeepsTheInvariant : Prop :=
  ∀ s t : State, Inv s → step s = .next t → Inv t

/-- The invariant holds after power-on, whatever the two registers hold, and so at State.reset. -/
def Obligations.TheInvariantHoldsAtPowerOn : Prop :=
  (∀ (o : DeviceId) (e : Bool), Inv (State.powerOn o e)) ∧ Inv State.reset

/-! ### Host software -/

/-- R179, R181 (the spec's decision D19), R91, R184: SEND of a text Message the host created is answered with its
fragment count and that many frames, and changes no state of the block but the response. The j-th frame verifies, is
within the MTU, holds the j-th slice of 228 bytes of the text, and carries the index j, the count, the sender, the
sequence, the default ttl and clear flags. -/
def Obligations.CreatedTextIsSent : Prop :=
  ∀ (d : DeviceId) (q : Half) (text : Bytes) (m : Message) (s : State), createText d q text = some m →
    ∃ (fs : List Bytes) (r : Response), fs.length = max 1 ((text.length + 227) / 228) ∧
      runCommands (sendCommands m) s =
        some (.okVal (BitVec.ofNat 16 fs.length) :: fs.map .okData, { s with response := some r }) ∧
      ∀ j < fs.length, (fs.getD j []).length ≤ 244 ∧ verify (fs.getD j []) = true ∧
        (fs.getD j []).drop 16 = (text.drop (228 * j)).take 228 ∧
        ∃ g, deserialize (fs.getD j []) = some g ∧ g.fragmentIndex.toNat = j ∧
          g.totalFragments.toNat = fs.length ∧ g.msgType = .text ∧ g.senderId = d ∧ g.sequence = q ∧
          g.ttl = 3 ∧ g.flags = 0

/-- R178 (what is well-formed UTF-8: PRESUMED, log entry 8): what `parse` keeps of a payload is a leading part of it
made of well-formed sequences, and the rest is empty or begins with none. Bytes below 0x80 are kept, each by itself;
nothing is kept from a byte 0xFF on. -/
def Obligations.ParsedTextIsAPrefix : Prop :=
  (∀ p : Bytes, ∃ (pieces : List Bytes) (rest : Bytes),
    parseText p = pieces.flatten ∧ p = parseText p ++ rest ∧ utf8Length rest = 0 ∧
    ∀ x ∈ pieces, 0 < x.length ∧ utf8Length x = x.length) ∧
  (∀ p q : Bytes, (∀ b ∈ p, b.toNat < 128) → parseText (p ++ 0xFF :: q) = p ∧ parseText p = p)
end

