-- ==== Sys2Proof/Laws/Config.lean ====
section
/-! SUPPORT. The values of the parameters, so that no proof unfolds the record. -/

namespace Sys2Proof

@[simp] theorem Config.par_headerSize : Config.par.headerSize = 16 := by decide
@[simp] theorem Config.par_mtu : Config.par.mtu = 244 := by decide
@[simp] theorem Config.par_protocolVersion : Config.par.protocolVersion = 1 := by decide
@[simp] theorem Config.par_crcInit : Config.par.crcInit = 0xFFFF := by decide
@[simp] theorem Config.par_crcPoly : Config.par.crcPoly = 0x1021 := by decide
@[simp] theorem Config.par_maxFragmentPayload : Config.par.maxFragmentPayload = 228 := by decide
@[simp] theorem Config.par_maxFragments : Config.par.maxFragments = 8 := by decide
@[simp] theorem Config.par_maxMessageSize : Config.par.maxMessageSize = 1024 := by decide
@[simp] theorem Config.par_fragTableCap : Config.par.fragTableCap = 4 := by decide
@[simp] theorem Config.par_rxDedupCap : Config.par.rxDedupCap = 32 := by decide
@[simp] theorem Config.par_relayDedupCap : Config.par.relayDedupCap = 16 := by decide
@[simp] theorem Config.par_defaultTtl : Config.par.defaultTtl = 3 := by decide
@[simp] theorem Config.cmdLenMax_eq : Config.cmdLenMax = 65535 := by decide

end Sys2Proof
end

