-- ==== Sys2Proof/Laws/Codec.lean ====
section
/-! SUPPORT. The byte layout and the frame codec: what each operation of theirs can answer. -/

namespace Sys2Proof.Machine

theorem hiByte_eq (v : Half) : hiByte v = BitVec.ofNat 8 (v.toNat / 256) := by
  apply BitVec.eq_of_toNat_eq
  simp [hiByte, Nat.shiftRight_eq_div_pow]

theorem loByte_eq (v : Half) : loByte v = BitVec.ofNat 8 (v.toNat % 256) := by
  apply BitVec.eq_of_toNat_eq
  simp [loByte]

/-- Big-endian reading in the spec's own words (R11). -/
theorem be16_eq (a b : Byte) : be16 a b = BitVec.ofNat 16 (a.toNat * 256 + b.toNat) := rfl

theorem be16_toNat (a b : Byte) : (be16 a b).toNat = a.toNat * 256 + b.toNat := by
  have ha := a.isLt
  have hb := b.isLt
  rw [be16, BitVec.toNat_ofNat, Nat.mod_eq_of_lt (by omega)]

@[simp] theorem be16_hiByte_loByte (v : Half) : be16 (hiByte v) (loByte v) = v := by
  apply BitVec.eq_of_toNat_eq
  have hv := v.isLt
  rw [be16_toNat, hiByte_eq, loByte_eq, BitVec.toNat_ofNat, BitVec.toNat_ofNat]
  omega

@[simp] theorem hiByte_be16 (a b : Byte) : hiByte (be16 a b) = a := by
  apply BitVec.eq_of_toNat_eq
  have ha := a.isLt
  have hb := b.isLt
  rw [hiByte_eq, be16_toNat, BitVec.toNat_ofNat]
  omega

@[simp] theorem loByte_be16 (a b : Byte) : loByte (be16 a b) = b := by
  apply BitVec.eq_of_toNat_eq
  have ha := a.isLt
  have hb := b.isLt
  rw [loByte_eq, be16_toNat, BitVec.toNat_ofNat]
  omega

@[simp] theorem typeOfCode_typeCode (t : MsgType) : typeOfCode (typeCode t) = some t := by
  cases t <;> decide

theorem typeOfCode_eq_some {c : Byte} {t : MsgType} (h : typeOfCode c = some t) : c = typeCode t := by
  unfold typeOfCode at h
  repeat' split at h
  all_goals first | (cases h; assumption) | cases h

theorem typeOfCode_eq_none_iff (c : Byte) :
    typeOfCode c = none ↔ c ≠ 1 ∧ c ≠ 2 ∧ c ≠ 3 ∧ c ≠ 4 := by
  unfold typeOfCode
  repeat' split
  all_goals simp_all

@[simp] theorem headerBytes_length (r : RawHeader) : (headerBytes r).length = 16 := rfl

@[simp] theorem serialize_length (h : Header) : (serialize h).length = 16 := rfl

@[simp] theorem frameBytes_length (t : MsgType) (b : FrameBody) :
    (frameBytes t b).length = 16 + b.payload.length := by
  simp [frameBytes]

@[simp] theorem splitFrame_headerBytes_append (r : RawHeader) (p : Bytes) :
    splitFrame (headerBytes r ++ p) = some (r, p) := by
  simp [headerBytes, splitFrame]

theorem splitFrame_eq_some {f : Bytes} {r : RawHeader} {p : Bytes} (h : splitFrame f = some (r, p)) :
    f = headerBytes r ++ p := by
  unfold splitFrame at h
  split at h
  · cases h
    simp [headerBytes]
  · cases h

theorem splitFrame_eq_none_iff (f : Bytes) : splitFrame f = none ↔ f.length < 16 := by
  constructor
  · intro h
    by_contra hl
    iterate 16
      rcases f with _ | ⟨_, f⟩
      · simp at hl
    simp [splitFrame] at h
  · intro h
    cases hs : splitFrame f with
    | none => rfl
    | some x =>
      have := congrArg List.length (splitFrame_eq_some (r := x.1) (p := x.2) hs)
      simp at this
      omega

@[simp] theorem typedOf_rawOf (h : Header) : typedOf (rawOf h) = some h := by
  simp [typedOf, rawOf, headerWith]

theorem typedOf_eq_some {r : RawHeader} {h : Header} (e : typedOf r = some h) : r = rawOf h := by
  simp only [typedOf, Option.map_eq_some_iff] at e
  obtain ⟨t, ht, rfl⟩ := e
  have := typeOfCode_eq_some ht
  cases r
  simp_all [rawOf, headerWith]

/-- A frame whose header says version 1 parses to that header, whatever follows it. -/
theorem deserialize_serialize_append {h : Header} (hv : h.version = 1) (p : Bytes) :
    deserialize (serialize h ++ p) = some h := by
  have : (rawOf h).version = 1 := hv
  simp [deserialize, serialize, this]

/-- Everything `Deserialize` can answer: a header, and then the frame is that header's bytes and a payload. -/
theorem deserialize_eq_some {f : Bytes} {h : Header} (e : deserialize f = some h) :
    h.version = 1 ∧ f = serialize h ++ f.drop 16 := by
  unfold deserialize at e
  split at e
  · cases e
  · rename_i r p hs
    split at e
    · rename_i hv
      have hr := typedOf_eq_some e
      have hf := splitFrame_eq_some hs
      subst hr
      exact ⟨hv, by rw [hf, serialize, List.drop_left' (headerBytes_length _)]⟩
    · cases e

@[simp] theorem frameChecksum_serialize_append (h : Header) (p : Bytes) :
    frameChecksum (serialize h ++ p) = headerChecksum h p := by
  simp [frameChecksum, headerChecksum, serialize, headerBytes]

@[simp] theorem storedChecksum_serialize_append (h : Header) (p : Bytes) :
    storedChecksum (serialize h ++ p) = h.checksum := by
  simp [storedChecksum, serialize, headerBytes, rawOf]

/-- The checksum field does not enter the checksum (R105). -/
@[simp] theorem headerChecksum_checksum (h : Header) (c : Half) (p : Bytes) :
    headerChecksum { h with checksum := c } p = headerChecksum h p := by
  simp [headerChecksum, serialize, headerBytes, rawOf]

/-- A sealed frame is the frame of the header whose checksum field holds its checksum. -/
theorem sealFrame_serialize_append (h : Header) (p : Bytes) :
    sealFrame (serialize h ++ p) = serialize { h with checksum := headerChecksum h p } ++ p := by
  rw [sealFrame, frameChecksum_serialize_append]
  simp [serialize, headerBytes, rawOf]

end Sys2Proof.Machine
end

