-- ==== Sys2Proof/Laws/Crc.lean ====
section
/-! SUPPORT. The CRC: it is read one byte at a time, and no step loses information. -/

namespace Sys2Proof.Machine

@[simp] theorem crc16_nil : crc16 [] = 0xFFFF := rfl

theorem crc16_append (a b : Bytes) : crc16 (a ++ b) = b.foldl crcByte (crc16 a) := by
  simp [crc16, List.foldl_append]

/-- The lowest bit of a step's result tells the bit the shift discarded, so the step can be undone. -/
theorem crcStep_injective : Function.Injective crcStep := by
  intro a b h
  have key : ∀ x : Half, (crcStep x).getLsbD 0 = x.getLsbD 15 ∧
      x <<< 1 = if x.getLsbD 15 then crcStep x ^^^ 0x1021 else crcStep x := by
    intro x
    unfold crcStep
    cases hx : x.getLsbD 15 <;> simp
  have hab : a <<< 1 = b <<< 1 := by
    rw [(key a).2, (key b).2, ← (key a).1, ← (key b).1, h]
  have htop : a.getLsbD 15 = b.getLsbD 15 := by rw [← (key a).1, ← (key b).1, h]
  apply BitVec.eq_of_getLsbD_eq
  intro i hi
  by_cases h15 : i = 15
  · subst h15
    exact htop
  · have := congrArg (fun v => BitVec.getLsbD v (i + 1)) hab
    have hlt : i + 1 < 16 := by omega
    simp only [BitVec.getLsbD_shiftLeft, hlt, decide_true, Bool.true_and, Nat.add_sub_cancel] at this
    simpa using this

theorem crcEight_injective : Function.Injective crcEight := by
  intro a b h
  unfold crcEight at h
  exact crcStep_injective (crcStep_injective (crcStep_injective (crcStep_injective
    (crcStep_injective (crcStep_injective (crcStep_injective (crcStep_injective h)))))))

/-- Two registers that differ still differ after the same byte. -/
theorem crcByte_injective_register (b : Byte) : Function.Injective (fun r => crcByte r b) := by
  intro r r' h
  have := crcEight_injective h
  simpa using this

/-- One register after two bytes that differ. -/
theorem crcByte_injective_byte (r : Half) : Function.Injective (crcByte r) := by
  intro b b' h
  have h2 := crcEight_injective h
  have h3 : BitVec.ofNat 16 (b.toNat * 256) = BitVec.ofNat 16 (b'.toNat * 256) := by
    have := congrArg (fun x => r ^^^ x) h2
    simpa [← BitVec.xor_assoc] using this
  have h4 := congrArg BitVec.toNat h3
  have hb := b.isLt
  have hb' := b'.isLt
  rw [BitVec.toNat_ofNat, BitVec.toNat_ofNat, Nat.mod_eq_of_lt (by omega), Nat.mod_eq_of_lt (by omega)] at h4
  exact BitVec.eq_of_toNat_eq (by omega)

theorem foldl_crcByte_injective (d : Bytes) : Function.Injective (fun r => d.foldl crcByte r) := by
  induction d with
  | nil => exact fun _ _ h => h
  | cons b d ih => exact fun _ _ h => crcByte_injective_register b (ih h)

end Sys2Proof.Machine
end

