-- ==== Sys2Proof/Laws/State.lean ====
section
/-! SUPPORT. What each update of the state does to each field: one lemma per field per update. -/

namespace Sys2Proof.Machine

variable (s : State)

@[simp] theorem State.withResponse_ownId (r : Response) : (s.withResponse r).ownId = s.ownId := rfl
@[simp] theorem State.withResponse_relayEn (r : Response) : (s.withResponse r).relayEn = s.relayEn := rfl
@[simp] theorem State.withResponse_ft (r : Response) : (s.withResponse r).ft = s.ft := rfl
@[simp] theorem State.withResponse_rxw (r : Response) : (s.withResponse r).rxw = s.rxw := rfl
@[simp] theorem State.withResponse_rlw (r : Response) : (s.withResponse r).rlw = s.rlw := rfl
@[simp] theorem State.withResponse_pending (r : Response) : (s.withResponse r).pending = s.pending := rfl
@[simp] theorem State.withResponse_response (r : Response) : (s.withResponse r).response = some r := rfl

@[simp] theorem State.withConfig_ownId (o : DeviceId) (e : Bool) : (s.withConfig o e).ownId = o := rfl
@[simp] theorem State.withConfig_relayEn (o : DeviceId) (e : Bool) : (s.withConfig o e).relayEn = e := rfl
@[simp] theorem State.withConfig_ft (o : DeviceId) (e : Bool) : (s.withConfig o e).ft = s.ft := rfl
@[simp] theorem State.withConfig_rxw (o : DeviceId) (e : Bool) : (s.withConfig o e).rxw = s.rxw := rfl
@[simp] theorem State.withConfig_rlw (o : DeviceId) (e : Bool) : (s.withConfig o e).rlw = s.rlw := rfl
@[simp] theorem State.withConfig_pending (o : DeviceId) (e : Bool) : (s.withConfig o e).pending = s.pending := rfl
@[simp] theorem State.withConfig_response (o : DeviceId) (e : Bool) : (s.withConfig o e).response = s.response := rfl

@[simp] theorem State.withFt_ownId (t : List FragmentBuffer) : (s.withFt t).ownId = s.ownId := rfl
@[simp] theorem State.withFt_relayEn (t : List FragmentBuffer) : (s.withFt t).relayEn = s.relayEn := rfl
@[simp] theorem State.withFt_ft (t : List FragmentBuffer) : (s.withFt t).ft = t := rfl
@[simp] theorem State.withFt_rxw (t : List FragmentBuffer) : (s.withFt t).rxw = s.rxw := rfl
@[simp] theorem State.withFt_rlw (t : List FragmentBuffer) : (s.withFt t).rlw = s.rlw := rfl
@[simp] theorem State.withFt_pending (t : List FragmentBuffer) : (s.withFt t).pending = s.pending := rfl
@[simp] theorem State.withFt_response (t : List FragmentBuffer) : (s.withFt t).response = s.response := rfl

@[simp] theorem State.withRxw_ownId (w : List Key) : (s.withRxw w).ownId = s.ownId := rfl
@[simp] theorem State.withRxw_relayEn (w : List Key) : (s.withRxw w).relayEn = s.relayEn := rfl
@[simp] theorem State.withRxw_ft (w : List Key) : (s.withRxw w).ft = s.ft := rfl
@[simp] theorem State.withRxw_rxw (w : List Key) : (s.withRxw w).rxw = w := rfl
@[simp] theorem State.withRxw_rlw (w : List Key) : (s.withRxw w).rlw = s.rlw := rfl
@[simp] theorem State.withRxw_pending (w : List Key) : (s.withRxw w).pending = s.pending := rfl
@[simp] theorem State.withRxw_response (w : List Key) : (s.withRxw w).response = s.response := rfl

@[simp] theorem State.withRlw_ownId (w : List Key) : (s.withRlw w).ownId = s.ownId := rfl
@[simp] theorem State.withRlw_relayEn (w : List Key) : (s.withRlw w).relayEn = s.relayEn := rfl
@[simp] theorem State.withRlw_ft (w : List Key) : (s.withRlw w).ft = s.ft := rfl
@[simp] theorem State.withRlw_rxw (w : List Key) : (s.withRlw w).rxw = s.rxw := rfl
@[simp] theorem State.withRlw_rlw (w : List Key) : (s.withRlw w).rlw = w := rfl
@[simp] theorem State.withRlw_pending (w : List Key) : (s.withRlw w).pending = s.pending := rfl
@[simp] theorem State.withRlw_response (w : List Key) : (s.withRlw w).response = s.response := rfl

@[simp] theorem State.withPending_ownId (p : List Input) : (s.withPending p).ownId = s.ownId := rfl
@[simp] theorem State.withPending_relayEn (p : List Input) : (s.withPending p).relayEn = s.relayEn := rfl
@[simp] theorem State.withPending_ft (p : List Input) : (s.withPending p).ft = s.ft := rfl
@[simp] theorem State.withPending_rxw (p : List Input) : (s.withPending p).rxw = s.rxw := rfl
@[simp] theorem State.withPending_rlw (p : List Input) : (s.withPending p).rlw = s.rlw := rfl
@[simp] theorem State.withPending_pending (p : List Input) : (s.withPending p).pending = p := rfl
@[simp] theorem State.withPending_response (p : List Input) : (s.withPending p).response = s.response := rfl

@[simp] theorem State.powerOn_ownId (o : DeviceId) (e : Bool) : (State.powerOn o e).ownId = o := rfl
@[simp] theorem State.powerOn_relayEn (o : DeviceId) (e : Bool) : (State.powerOn o e).relayEn = e := rfl
@[simp] theorem State.powerOn_ft (o : DeviceId) (e : Bool) : (State.powerOn o e).ft = [] := rfl
@[simp] theorem State.powerOn_rxw (o : DeviceId) (e : Bool) : (State.powerOn o e).rxw = [] := rfl
@[simp] theorem State.powerOn_rlw (o : DeviceId) (e : Bool) : (State.powerOn o e).rlw = [] := rfl
@[simp] theorem State.powerOn_pending (o : DeviceId) (e : Bool) : (State.powerOn o e).pending = [] := rfl
@[simp] theorem State.powerOn_response (o : DeviceId) (e : Bool) : (State.powerOn o e).response = none := rfl

end Sys2Proof.Machine
end

