-- ==== Sys2Proof/Laws/Exec.lean ====
section
/-! SUPPORT. The ports, the guard every meaning stands behind, and the step. -/

namespace Sys2Proof.Machine

@[simp] theorem respond_eq_next (s : State) (r : Response) : respond s r = .next (s.withResponse r) := rfl

theorem presented_of_wellFormed {i : Instr} (h : i.WellFormed) (k : Result) : presented i k = k := by
  simp [presented, h]

theorem presented_of_not_wellFormed {i : Instr} (h : ¬ i.WellFormed) (k : Result) :
    presented i k = .refused .operandRange := by
  simp [presented, h]

theorem receive_eq_next (s : State) (f : Bytes) :
    receive s f = .next ((process Config.zeroTotalPolicy Config.fragRejectOrder s f).1.withResponse
      (process Config.zeroTotalPolicy Config.fragRejectOrder s f).2) := rfl

theorem takeInput_cons {s : State} {inp : Input} {rest : List Input} (h : s.pending = inp :: rest) :
    takeInput s = some (inp, s.withPending rest) := by
  simp [takeInput, h]

theorem takeInput_nil {s : State} (h : s.pending = []) : takeInput s = none := by
  simp [takeInput, h]

/-- Everything a next state of a step can come from: nothing presented, or a decoded instruction run. -/
theorem step_cases {s t : State} (h : step s = .next t) :
    (s.pending = [] ∧ t = s) ∨
    (∃ inp rest i, s.pending = inp :: rest ∧ decode inp = .ok i ∧ exec i (s.withPending rest) = .next t) := by
  unfold step at h
  cases hp : s.pending with
  | nil =>
    rw [takeInput_nil hp] at h
    cases h
    exact .inl ⟨rfl, rfl⟩
  | cons inp rest =>
    rw [takeInput_cons hp] at h
    refine .inr ⟨inp, rest, ?_⟩
    cases hd : decode inp with
    | ok i =>
      simp only [hd] at h
      exact ⟨i, rfl, rfl, h⟩
    | error e =>
      simp only [hd] at h
      cases e <;> cases h

end Sys2Proof.Machine
end

