-- ==== Sys2Proof/Laws/Fragments.lean ====
section
/-! SUPPORT. The Fragment Engine: what lookup, store, removal, concatenation and ADD_FRAGMENT can answer. -/

namespace Sys2Proof.Machine

/-! ### Transmit side -/

/-- FRAG_COUNT in the words of the source's law, `max(1, ceil(L/228))`, below the bound. -/
theorem fragCount_eq (len : Nat) :
    fragCount len = if 1824 < len then none else some (max 1 ((len + 227) / 228)) := by
  simp only [fragCount, Config.par_maxFragmentPayload, Config.par_maxFragments]
  split
  · subst len
    simp
  · have : max 1 ((len + 227) / 228) = (len + 228 - 1) / 228 := by omega
    rw [this]
    by_cases h : 1824 < len
    · rw [if_pos h, if_pos (by omega)]
    · rw [if_neg h, if_neg (by omega)]

theorem slice_eq (b : Bytes) (lo hi : Nat) : slice b lo hi = (b.drop lo).take (hi - lo) := by
  rw [slice, List.drop_take]

/-- The slice of fragment `idx` (R93), without the `min`. -/
theorem fragmentSlice_eq (p : Bytes) (idx : Nat) : fragmentSlice p idx = (p.drop (228 * idx)).take 228 := by
  rw [fragmentSlice, slice_eq, Config.par_maxFragmentPayload, Nat.mul_comm idx]
  by_cases h : 228 * idx + 228 ≤ p.length
  · have : min ((idx + 1) * 228) p.length - 228 * idx = 228 := by omega
    rw [this]
  · rw [List.take_of_length_le (by simp; omega), List.take_of_length_le (by simp; omega)]

/-! ### The table -/

theorem find_eq_some {t : List FragmentBuffer} {k : Key} {b : FragmentBuffer} (h : find t k = some b) :
    b ∈ t ∧ b.key = k :=
  ⟨List.mem_of_find?_eq_some h, by simpa using List.find?_some h⟩

theorem find_eq_none_iff (t : List FragmentBuffer) (k : Key) : find t k = none ↔ ∀ b ∈ t, b.key ≠ k := by
  simp [find]

theorem find_eq_some_of_mem {t : List FragmentBuffer} {b : FragmentBuffer} (hd : (t.map (·.key)).Nodup)
    (hb : b ∈ t) : find t b.key = some b := by
  induction t with
  | nil => cases hb
  | cons c t ih =>
    rw [List.map_cons, List.nodup_cons] at hd
    rcases List.mem_cons.mp hb with rfl | hb
    · simp [find]
    · have hne : c.key ≠ b.key := fun e => hd.1 (e ▸ List.mem_map_of_mem hb)
      have := ih hd.2 hb
      simpa [find, hne] using this

theorem makeRoom_length_le (t : List FragmentBuffer) (h : t.length ≤ 4) : (makeRoom t).length ≤ 3 := by
  unfold makeRoom
  rw [Config.par_fragTableCap]
  split
  · rw [List.length_drop]
    omega
  · omega

theorem makeRoom_sublist (t : List FragmentBuffer) : (makeRoom t).Sublist t := by
  unfold makeRoom
  split
  · exact List.drop_sublist 1 t
  · exact List.Sublist.refl t

/-- Lookup, eviction, creation: the buffer is there and the table is as it was, or it is new and youngest. -/
theorem obtain_cases (t : List FragmentBuffer) (h : Header) :
    (∃ b, find t (keyOf h) = some b ∧ obtain t h = (t, b)) ∨
    (find t (keyOf h) = none ∧ obtain t h = (makeRoom t ++ [newBuffer h], newBuffer h)) := by
  unfold obtain
  cases hf : find t (keyOf h) with
  | some b => exact .inl ⟨b, rfl, rfl⟩
  | none => exact .inr ⟨rfl, rfl⟩

theorem obtain_key (t : List FragmentBuffer) (h : Header) : (obtain t h).2.key = keyOf h := by
  rcases obtain_cases t h with ⟨b, hf, e⟩ | ⟨-, e⟩
  · rw [e]
    exact (find_eq_some hf).2
  · rw [e]
    rfl

theorem obtain_mem (t : List FragmentBuffer) (h : Header) : (obtain t h).2 ∈ (obtain t h).1 := by
  rcases obtain_cases t h with ⟨b, hf, e⟩ | ⟨-, e⟩
  · rw [e]
    exact (find_eq_some hf).1
  · simp [e]

theorem mem_putBuffer {t : List FragmentBuffer} {b x : FragmentBuffer} (h : x ∈ putBuffer t b) : x = b ∨ x ∈ t := by
  obtain ⟨y, hy, rfl⟩ := List.mem_map.mp h
  split
  · exact .inl rfl
  · exact .inr hy

/-- Writing a buffer back keeps every age and every key (R35, R43). -/
theorem putBuffer_keys (t : List FragmentBuffer) (b : FragmentBuffer) :
    (putBuffer t b).map (·.key) = t.map (·.key) := by
  rw [putBuffer, List.map_map]
  apply List.map_congr_left
  intro x _
  simp only [Function.comp]
  split
  · rename_i h
    exact h.symm
  · rfl

@[simp] theorem putBuffer_length (t : List FragmentBuffer) (b : FragmentBuffer) :
    (putBuffer t b).length = t.length := by
  simp [putBuffer]

theorem mem_removeBuffer {t : List FragmentBuffer} {k : Key} {x : FragmentBuffer} :
    x ∈ removeBuffer t k ↔ x ∈ t ∧ x.key ≠ k := by
  simp [removeBuffer]

theorem removeBuffer_sublist (t : List FragmentBuffer) (k : Key) : (removeBuffer t k).Sublist t :=
  List.filter_sublist

/-! ### Store -/

/-- Store or no-op: the slot was empty, and it and the count are written; or nothing is. -/
theorem storeSlice_cases (b : FragmentBuffer) (j : Nat) (x : Bytes) :
    (slotAt b j = none ∧
      storeSlice b j x = { b with slots := b.slots.set j (some x), receivedCount := b.receivedCount + 1 }) ∨
    (∃ y, slotAt b j = some y ∧ storeSlice b j x = b) := by
  unfold storeSlice
  cases hs : slotAt b j with
  | none => exact .inl ⟨rfl, rfl⟩
  | some y => exact .inr ⟨y, rfl, rfl⟩

@[simp] theorem storeSlice_key (b : FragmentBuffer) (j : Nat) (x : Bytes) : (storeSlice b j x).key = b.key := by
  rcases storeSlice_cases b j x with ⟨-, e⟩ | ⟨_, -, e⟩ <;> rw [e]

@[simp] theorem storeSlice_header (b : FragmentBuffer) (j : Nat) (x : Bytes) :
    (storeSlice b j x).header = b.header := by
  rcases storeSlice_cases b j x with ⟨-, e⟩ | ⟨_, -, e⟩ <;> rw [e]

@[simp] theorem storeSlice_totalExpected (b : FragmentBuffer) (j : Nat) (x : Bytes) :
    (storeSlice b j x).totalExpected = b.totalExpected := by
  rcases storeSlice_cases b j x with ⟨-, e⟩ | ⟨_, -, e⟩ <;> rw [e]

theorem filter_isSome_set {l : List (Option Bytes)} {j : Nat} {x : Bytes} (h : l[j]? = some none) :
    ((l.set j (some x)).filter Option.isSome).length = (l.filter Option.isSome).length + 1 := by
  induction l generalizing j with
  | nil => simp at h
  | cons o l ih =>
    cases j with
    | zero =>
      simp only [List.getElem?_cons_zero, Option.some.injEq] at h
      subst h
      simp
    | succ j =>
      have := ih (j := j) (by simpa using h)
      cases o <;> simp_all

theorem slotAt_eq_none {b : FragmentBuffer} {j : Nat} (hj : j < b.slots.length) (h : slotAt b j = none) :
    b.slots[j]? = some none := by
  unfold slotAt at h
  rw [List.getElem?_eq_getElem hj] at h ⊢
  simpa using h

theorem slotAt_eq_some {b : FragmentBuffer} {j : Nat} {y : Bytes} (h : slotAt b j = some y) :
    b.slots[j]? = some (some y) := by
  unfold slotAt at h
  cases hs : b.slots[j]? with
  | none => simp [hs] at h
  | some o => simpa [hs] using h

/-! ### Concatenation -/

/-- The loop of R133 and R134: it succeeds exactly when its slots are all filled and fit, and gives them in order. -/
theorem joinSlots_eq_some_iff (b : FragmentBuffer) (n j : Nat) (out r : Bytes) (hout : out.length ≤ 1024) :
    joinSlots b n j out = some r ↔
      ∃ xs : List Bytes, (List.range' j n).map (slotAt b) = xs.map some ∧
        r = out ++ xs.flatten ∧ r.length ≤ 1024 := by
  induction n generalizing j out with
  | zero =>
    simp only [joinSlots, Option.some.injEq, List.range'_zero, List.map_nil]
    constructor
    · rintro rfl
      exact ⟨[], rfl, by simp, hout⟩
    · rintro ⟨xs, hx, rfl, -⟩
      cases xs with
      | nil => simp
      | cons x xs => simp at hx
  | succ n ih =>
    simp only [joinSlots, List.range'_succ, List.map_cons, Config.par_maxMessageSize]
    cases hs : slotAt b j with
    | none =>
      constructor
      · intro h
        cases h
      · rintro ⟨xs, hx, -⟩
        cases xs <;> simp at hx
    | some x =>
      show (if 1024 < out.length + x.length then none else joinSlots b n (j + 1) (out ++ x)) = some r ↔ _
      by_cases hlt : 1024 < out.length + x.length
      · rw [if_pos hlt]
        constructor
        · intro h
          cases h
        · rintro ⟨xs, hx, rfl, hr⟩
          cases xs with
          | nil => simp at hx
          | cons y ys =>
            simp only [List.map_cons, List.cons.injEq, Option.some.injEq] at hx
            obtain ⟨rfl, -⟩ := hx
            simp at hr
            omega
      · rw [if_neg hlt]
        rw [ih (j + 1) (out ++ x) (by simp; omega)]
        constructor
        · rintro ⟨xs, hx, rfl, hr⟩
          exact ⟨x :: xs, by simp [hx], by simp, hr⟩
        · rintro ⟨xs, hx, rfl, hr⟩
          cases xs with
          | nil => simp at hx
          | cons y ys =>
            simp only [List.map_cons, List.cons.injEq, Option.some.injEq] at hx
            obtain ⟨rfl, hx⟩ := hx
            exact ⟨ys, hx, by simp, hr⟩

/-- A completed buffer's payload is within the bound (R134). -/
theorem assemble_complete_length {b : FragmentBuffer} {m : Message} (h : assemble b = .complete m) :
    m.header = b.header ∧ m.payload.length ≤ 1024 := by
  unfold assemble at h
  split at h
  · rename_i out ho
    cases h
    obtain ⟨_, -, -, hl⟩ := (joinSlots_eq_some_iff b _ 0 [] out (by simp)).mp ho
    exact ⟨rfl, hl⟩
  · cases h

theorem assemble_ne_incomplete (b : FragmentBuffer) : assemble b ≠ .incomplete := by
  unfold assemble
  split <;> simp

/-! ### ADD_FRAGMENT -/

theorem badIndex_eq_true_iff (h : Header) :
    badIndex h = true ↔ h.totalFragments.toNat ≤ h.fragmentIndex.toNat ∨ 8 ≤ h.fragmentIndex.toNat := by
  simp [badIndex]

theorem badIndex_eq_false_iff (h : Header) :
    badIndex h = false ↔ h.fragmentIndex.toNat < h.totalFragments.toNat ∧ h.fragmentIndex.toNat < 8 := by
  rw [← Bool.not_eq_true, badIndex_eq_true_iff]
  omega

/-- Everything ADD_FRAGMENT can do (R127): reject; complete, with the buffer removed; or store and go on. -/
theorem addFragment_cases (ro : FragRejectOrder) (t : List FragmentBuffer) (h : Header) (x : Bytes) :
    (badIndex h = true ∧ addFragment ro t h x = (rejectTable ro t h, .error)) ∨
    (badIndex h = false ∧
      (storeSlice (obtain t h).2 h.fragmentIndex.toNat x).receivedCount = (obtain t h).2.totalExpected.toNat ∧
      addFragment ro t h x =
        (removeBuffer (obtain t h).1 (keyOf h),
          assemble (storeSlice (obtain t h).2 h.fragmentIndex.toNat x))) ∨
    (badIndex h = false ∧
      (storeSlice (obtain t h).2 h.fragmentIndex.toNat x).receivedCount ≠ (obtain t h).2.totalExpected.toNat ∧
      addFragment ro t h x =
        (putBuffer (obtain t h).1 (storeSlice (obtain t h).2 h.fragmentIndex.toNat x), .incomplete)) := by
  cases hb : badIndex h with
  | true => exact .inl ⟨rfl, by simp [addFragment, hb]⟩
  | false =>
    by_cases hc : (storeSlice (obtain t h).2 h.fragmentIndex.toNat x).receivedCount =
        (obtain t h).2.totalExpected.toNat
    · exact .inr (.inl ⟨rfl, hc, by simp [addFragment, hb, hc, obtain_key]⟩)
    · exact .inr (.inr ⟨rfl, hc, by simp [addFragment, hb, hc]⟩)

/-! ### The table's invariant -/

theorem bufferOk_newBuffer {h : Header}
    (hz : h.totalFragments.toNat = 0 → Config.fragRejectOrder = .allocateFirst) : BufferOk (newBuffer h) := by
  refine ⟨by simp [newBuffer], ?_, by simp [newBuffer, filledSlots], rfl, rfl, ?_⟩
  · intro o ho
    simp only [newBuffer, List.mem_replicate] at ho
    simp [ho.2]
  · intro e
    exact ⟨rfl, hz e.symm⟩

theorem nodup_of_key_sublist {a b : List FragmentBuffer} (h : a.Sublist b) (hd : (b.map (·.key)).Nodup) :
    (a.map (·.key)).Nodup :=
  hd.sublist (h.map _)

/-- Lookup, eviction and creation keep the table's invariant. -/
theorem tableOk_obtain {t : List FragmentBuffer} {h : Header} (ht : TableOk t)
    (hz : h.totalFragments.toNat = 0 → Config.fragRejectOrder = .allocateFirst) : TableOk (obtain t h).1 := by
  obtain ⟨hl, hd, hb⟩ := ht
  rcases obtain_cases t h with ⟨b, -, e⟩ | ⟨hf, e⟩
  · rw [e]
    exact ⟨hl, hd, hb⟩
  · rw [e]
    have hsub := makeRoom_sublist t
    refine ⟨?_, ?_, ?_⟩
    · have := makeRoom_length_le t hl
      simp
      omega
    · rw [List.map_append, List.nodup_append]
      refine ⟨nodup_of_key_sublist hsub hd, by simp, ?_⟩
      intro a ha c hc
      obtain ⟨y, hy, rfl⟩ := List.mem_map.mp ha
      simp only [List.map_cons, List.map_nil, List.mem_singleton] at hc
      subst hc
      exact (find_eq_none_iff t (keyOf h)).mp hf y (hsub.subset hy)
    · intro y hy
      rcases List.mem_append.mp hy with hy | hy
      · exact hb y (hsub.subset hy)
      · rw [List.mem_singleton.mp hy]
        exact bufferOk_newBuffer hz

/-- A store into a sound buffer, apart from the completion test. -/
theorem storeSlice_sound {b : FragmentBuffer} (hb : BufferOk b) {j : Nat} (hj : j < 8) {x : Bytes}
    (hx : x.length ≤ 228)
    (hne : (storeSlice b j x).receivedCount ≠ b.totalExpected.toNat) : BufferOk (storeSlice b j x) := by
  obtain ⟨hl, hs, hc, hk, ht, hdone⟩ := hb
  rcases storeSlice_cases b j x with ⟨hn, e⟩ | ⟨_, _, e⟩
  · have hget := slotAt_eq_none (by rw [hl]; exact hj) hn
    rw [e] at hne ⊢
    refine ⟨by simpa using hl, ?_, ?_, hk, ht, fun e => absurd e hne⟩
    · intro o ho
      rcases List.mem_or_eq_of_mem_set ho with ho | rfl
      · exact hs o ho
      · simpa using hx
    · simp only [filledSlots] at hc ⊢
      rw [filter_isSome_set hget, hc]
  · rw [e]
    exact ⟨hl, hs, hc, hk, ht, hdone⟩

/-- ADD_FRAGMENT keeps the table's invariant, for the block's `FRAG_REJECT_ORDER`. -/
theorem tableOk_addFragment {t : List FragmentBuffer} (ht : TableOk t) (h : Header) {x : Bytes}
    (hx : x.length ≤ 228) : TableOk (addFragment Config.fragRejectOrder t h x).1 := by
  rcases addFragment_cases Config.fragRejectOrder t h x with ⟨-, e⟩ | ⟨hb, -, e⟩ | ⟨hb, hne, e⟩
  · rw [e]
    show TableOk (rejectTable _ _ _)
    unfold rejectTable
    split
    · exact ht
    · rename_i ho
      exact tableOk_obtain ht fun _ => ho
  · have hg := (badIndex_eq_false_iff h).mp hb
    have h1 := tableOk_obtain (h := h) ht (fun e => by omega)
    rw [e]
    have hsub := removeBuffer_sublist (obtain t h).1 (keyOf h)
    exact ⟨hsub.length_le.trans h1.1, nodup_of_key_sublist hsub h1.2.1, fun y hy => h1.2.2 y (hsub.subset hy)⟩
  · have hg := (badIndex_eq_false_iff h).mp hb
    have h1 := tableOk_obtain (h := h) ht (fun e => by omega)
    rw [e]
    refine ⟨by simpa using h1.1, ?_, ?_⟩
    · show (List.map _ (putBuffer _ _)).Nodup
      rw [putBuffer_keys]
      exact h1.2.1
    · intro y hy
      rcases mem_putBuffer hy with rfl | hy
      · exact storeSlice_sound (h1.2.2 _ (obtain_mem t h)) hg.2 hx hne
      · exact h1.2.2 y hy

end Sys2Proof.Machine
end

