-- ==== Sys2Proof/Laws/Windows.lean ====
section
/-! SUPPORT. The two window primitives: what each of them does, once. -/

namespace Sys2Proof.Machine

theorem contains_iff_mem (w : List Key) (k : Key) : contains w k = true ↔ k ∈ w := by
  unfold contains
  rw [List.any_eq_true]
  constructor
  · rintro ⟨⟨q, d⟩, he, h⟩
    simp only [Bool.and_eq_true, beq_iff_eq] at h
    obtain ⟨rfl, rfl⟩ := h
    exact he
  · exact fun h => ⟨k, h, by simp⟩

theorem contains_eq_false_iff (w : List Key) (k : Key) : contains w k = false ↔ k ∉ w := by
  rw [← contains_iff_mem, Bool.not_eq_true]

theorem record_of_full {w : List Key} {cap : Nat} (h : cap ≤ w.length) (k : Key) :
    record w cap k = w.drop 1 ++ [k] := by
  simp [record, h]

theorem record_of_room {w : List Key} {cap : Nat} (h : w.length < cap) (k : Key) :
    record w cap k = w ++ [k] := by
  simp [record, Nat.not_le.mpr h]

theorem record_length_le {w : List Key} {cap : Nat} (hc : 0 < cap) (h : w.length ≤ cap) (k : Key) :
    (record w cap k).length ≤ cap := by
  unfold record
  split <;> simp <;> omega

theorem record_nodup {w : List Key} {cap : Nat} {k : Key} (h : w.Nodup) (hk : k ∉ w) :
    (record w cap k).Nodup := by
  have hsub : ∀ x ∈ w.drop 1, x ∈ w := fun x hx => List.mem_of_mem_drop hx
  unfold record
  split
  · refine List.nodup_append.mpr ⟨h.sublist (List.drop_sublist 1 w), by simp, ?_⟩
    intro a ha b hb
    simp only [List.mem_singleton] at hb
    subst hb
    exact fun e => hk (e ▸ hsub a ha)
  · refine List.nodup_append.mpr ⟨h, by simp, ?_⟩
    intro a ha b hb
    simp only [List.mem_singleton] at hb
    subst hb
    exact fun e => hk (e ▸ ha)

theorem mem_record_self (w : List Key) (cap : Nat) (k : Key) : k ∈ record w cap k := by
  simp [record]

end Sys2Proof.Machine
end

