-- ==== Sys2Proof/Laws/Receive.lean ====
section
/-! SUPPORT. The receive pipeline and the relay decision: everything they can answer. -/

namespace Sys2Proof.Machine

/-- Everything PROCESS can do, in the order of R154: the frame is malformed; its key is known; its checksum is wrong;
or it is routed. -/
theorem process_cases (zp : ZeroTotalPolicy) (ro : FragRejectOrder) (s : State) (f : Bytes) :
    (deserialize f = none ∧ process zp ro s f = (s, .errInvalidMessage)) ∨
    (∃ h, deserialize f = some h ∧ keyOf h ∈ s.rxw ∧ process zp ro s f = (s, .none)) ∨
    (∃ h, deserialize f = some h ∧ keyOf h ∉ s.rxw ∧ frameChecksum f ≠ h.checksum ∧
      process zp ro s f = (s, .errChecksum)) ∨
    (∃ h, deserialize f = some h ∧ keyOf h ∉ s.rxw ∧ frameChecksum f = h.checksum ∧
      process zp ro s f = route zp ro s h (f.drop 16)) := by
  have hshort : f.length < 16 → deserialize f = none := by
    intro hl
    simp [deserialize, (splitFrame_eq_none_iff f).mpr hl]
  unfold process
  rw [Config.par_headerSize]
  by_cases hl : f.length < 16
  · exact .inl ⟨hshort hl, by rw [if_pos hl]⟩
  · rw [if_neg hl]
    cases hd : deserialize f with
    | none => exact .inl ⟨rfl, rfl⟩
    | some h =>
      by_cases hk : keyOf h ∈ s.rxw
      · exact .inr (.inl ⟨h, rfl, hk, by simp [(contains_iff_mem _ _).mpr hk]⟩)
      · have hc := (contains_eq_false_iff _ _).mpr hk
        by_cases hs : frameChecksum f = h.checksum
        · exact .inr (.inr (.inr ⟨h, rfl, hk, hs, by simp [hc, hs]⟩))
        · exact .inr (.inr (.inl ⟨h, rfl, hk, hs, by simp [hc, hs]⟩))

/-- PROCESS on a frame laid out as a header of version 1 and a payload. -/
theorem process_serialize_append (zp : ZeroTotalPolicy) (ro : FragRejectOrder) (s : State) {h : Header}
    (hv : h.version = 1) (p : Bytes) :
    process zp ro s (serialize h ++ p) =
      if keyOf h ∈ s.rxw then (s, .none)
      else if headerChecksum h p ≠ h.checksum then (s, .errChecksum)
      else route zp ro s h p := by
  have hd := deserialize_serialize_append hv p
  have hdrop : (serialize h ++ p).drop 16 = p := List.drop_left' (serialize_length h)
  rcases process_cases zp ro s (serialize h ++ p) with ⟨e, -⟩ | ⟨g, e, hk, r⟩ | ⟨g, e, hk, hc, r⟩ | ⟨g, e, hk, hc, r⟩
  · rw [hd] at e
    cases e
  all_goals
    rw [hd, Option.some.injEq] at e
    subst e
  · rw [r, if_pos hk]
  · rw [frameChecksum_serialize_append] at hc
    rw [r, if_neg hk, if_pos hc]
  · rw [frameChecksum_serialize_append] at hc
    rw [r, if_neg hk, if_neg (by simpa using hc), hdrop]

/-- Everything routing can do: the Fragment Engine's three results, or, for a total of at most 1, no table touched. -/
theorem route_cases (zp : ZeroTotalPolicy) (ro : FragRejectOrder) (s : State) (h : Header) (p : Bytes) :
    (1 < h.totalFragments.toNat ∧
      ((∃ t m, addFragment ro s.ft h p = (t, .complete m) ∧
          route zp ro s h p = ((s.withFt t).withRxw (record s.rxw 32 (keyOf h)), .okMessage m)) ∨
        (∃ t, addFragment ro s.ft h p = (t, .incomplete) ∧ route zp ro s h p = (s.withFt t, .none)) ∨
        (∃ t, addFragment ro s.ft h p = (t, .error) ∧ route zp ro s h p = (s.withFt t, .errFragmentation)))) ∨
    (h.totalFragments.toNat ≤ 1 ∧
      (route zp ro s h p = (s.withRxw (record s.rxw 32 (keyOf h)), .okMessage ⟨h, p⟩) ∨
        (h.totalFragments.toNat = 0 ∧
          (route zp ro s h p = (s, .errFragmentation) ∨ route zp ro s h p = (s, .errInvalidMessage))))) := by
  unfold route
  by_cases h1 : 1 < h.totalFragments.toNat
  · refine .inl ⟨h1, ?_⟩
    rw [if_pos h1]
    unfold reassemble
    rcases ha : addFragment ro s.ft h p with ⟨t, m | _ | _⟩
    · exact .inl ⟨t, m, rfl, rfl⟩
    · exact .inr (.inl ⟨t, rfl, rfl⟩)
    · exact .inr (.inr ⟨t, rfl, rfl⟩)
  · refine .inr ⟨by omega, ?_⟩
    rw [if_neg h1]
    by_cases h2 : h.totalFragments.toNat = 1
    · rw [if_pos h2]
      exact .inl rfl
    · rw [if_neg h2]
      cases zp with
      | direct => exact .inl rfl
      | fragError => exact .inr ⟨by omega, .inl rfl⟩
      | invalid => exact .inr ⟨by omega, .inr rfl⟩

theorem relayBarred_eq_true_iff (s : State) (h : Header) :
    relayBarred s h = true ↔
      h.senderId = s.ownId ∨ h.ttl = 0 ∨ keyOf h ∈ s.rlw ∨ h.msgType = .ack ∨ s.relayEn = false := by
  simp [relayBarred, contains_iff_mem, or_assoc]

/-- Everything SHOULD_RELAY can do: answer 0 and change nothing, or answer 1 and record the key. -/
theorem shouldRelay_cases (s : State) (h : Header) :
    (relayBarred s h = true ∧ shouldRelay s h = (s, .okVal 0)) ∨
    (relayBarred s h = false ∧ shouldRelay s h = (s.withRlw (record s.rlw 16 (keyOf h)), .okVal 1)) := by
  unfold shouldRelay
  cases hb : relayBarred s h with
  | true => exact .inl ⟨rfl, rfl⟩
  | false => exact .inr ⟨rfl, rfl⟩

end Sys2Proof.Machine
end

