-- ==== Sys2Proof/Laws/HostSide.lean ====
section
/-! SUPPORT. What the host's inbound pipeline can do: PROCESS alone, or PROCESS and the relay decision, with or without a
relayed copy. -/

namespace Sys2Proof.Machine

theorem runCommands_cons {i : Instr} {s t : State} {r : Response} (is : List Instr) (h : exec i s = .next t)
    (hr : t.response = some r) : runCommands (i :: is) s = (runCommands is t).map fun x => (r :: x.1, x.2) := by
  simp only [runCommands, h, hr]
  cases runCommands is t <;> rfl

/-- A frame that PROCESS does not deliver: nothing follows. -/
theorem receiveRun_of_not_delivered {f : Bytes} {s t : State} {r : Response} (h : exec (.process f) s = .next t)
    (hr : t.response = some r) (hn : ∀ m, r ≠ .okMessage m) : receiveRun f s = some ([r], t) := by
  have e : runCommands [receiveCommand f] s = some ([r], t) := runCommands_cons [] h hr
  rw [receiveRun, e]
  cases r <;> first | rfl | exact absurd rfl (hn _)

/-- A frame that PROCESS delivers: the relay decision on its Message follows, and nothing else. -/
theorem receiveRun_of_delivered {f : Bytes} {s t : State} {m : Message} (h : exec (.process f) s = .next t)
    (hr : t.response = some (.okMessage m)) :
    receiveRun f s = (relayMessage m t).map fun y => (.okMessage m :: y.1, y.2) := by
  have e : runCommands [receiveCommand f] s = some ([.okMessage m], t) := runCommands_cons [] h hr
  rw [receiveRun, e]
  rfl

/-- A Message SHOULD_RELAY bars: two answers, and nothing is sent. -/
theorem relayMessage_of_barred {m : Message} {s : State} (h : relayBarred s m.header = true) :
    relayMessage m s = some ([.okVal 1, .okVal 0], s.withResponse (.okVal 0)) := by
  have e : runCommands (afterProcess (.okMessage m)) s = some ([.okVal 1, .okVal 0], s.withResponse (.okVal 0)) := by
    refine (runCommands_cons (t := s.withResponse (.okVal 1)) (r := .okVal 1) _ rfl rfl).trans ?_
    have hb : relayBarred (s.withResponse (.okVal 1)) m.header = true := h
    have e2 : exec (.shouldRelay m.header) (s.withResponse (.okVal 1)) = .next (s.withResponse (.okVal 0)) := by
      change respond (shouldRelay _ _).1 (shouldRelay _ _).2 = _
      rw [shouldRelay, if_pos hb]
      rfl
    rw [runCommands_cons [] e2 rfl]
    rfl
  rw [relayMessage, e]
  rfl

/-- A Message SHOULD_RELAY records: PREPARE_FOR_RELAY, and `SEND` of the prepared Message (R166, R225). -/
theorem relayMessage_of_not_barred {m : Message} {s : State} (h : relayBarred s m.header = false) :
    relayMessage m s =
      (runCommands (sendCommands ⟨prepareForRelay m.header, m.payload⟩)
        ((s.withRlw (record s.rlw Config.par.relayDedupCap (keyOf m.header))).withResponse
          (.okHeader (prepareForRelay m.header)))).map
        fun y => ([.okVal 1, .okVal 1, .okHeader (prepareForRelay m.header)] ++ y.1, y.2) := by
  have e : runCommands (afterProcess (.okMessage m)) s = some ([.okVal 1, .okVal 1],
      (s.withRlw (record s.rlw Config.par.relayDedupCap (keyOf m.header))).withResponse (.okVal 1)) := by
    refine (runCommands_cons (t := s.withResponse (.okVal 1)) (r := .okVal 1) _ rfl rfl).trans ?_
    have hb : relayBarred (s.withResponse (.okVal 1)) m.header = false := h
    have e2 : exec (.shouldRelay m.header) (s.withResponse (.okVal 1)) = .next
        ((s.withRlw (record s.rlw Config.par.relayDedupCap (keyOf m.header))).withResponse (.okVal 1)) := by
      change respond (shouldRelay _ _).1 (shouldRelay _ _).2 = _
      rw [shouldRelay, if_neg (by rw [hb]; decide)]
      rfl
    rw [runCommands_cons [] e2 rfl]
    rfl
  rw [relayMessage, e]
  rfl

end Sys2Proof.Machine
end

