-- ==== Sys2Proof/Laws/PerInstr.lean ====
section
/-! SUPPORT. What holds of each instruction as syntax: the code its encoding carries is its row's of `opcode_table.json`. -/

namespace Sys2Proof.Laws.Opcode

open Sys2Proof Sys2Proof.Machine

/-- The row of an instruction: how many bits `match` has, and its value (R79, R92). -/
def row : Instr → Nat × Nat
  | .reset _ _ => (8, 0x00)
  | .cfgWrite _ _ => (8, 0x01)
  | .serialize _ => (8, 0x10)
  | .deserialize _ => (8, 0x11)
  | .checksum _ _ => (8, 0x12)
  | .verify _ => (8, 0x13)
  | .fragCount _ => (8, 0x20)
  | .getFragment _ _ _ => (8, 0x21)
  | .addFragment _ _ => (8, 0x22)
  | .process _ => (8, 0x30)
  | .shouldRelay _ => (8, 0x40)
  | .prepareForRelay _ => (8, 0x41)
  | .isForUs _ => (8, 0x42)
  | .frameText _ => (16, 0x0101)
  | .frameAck _ => (16, 0x0102)
  | .frameAnnounce _ => (16, 0x0103)
  | .frameRelay _ => (16, 0x0104)

/-- The bits an input shows of its row: `cmd_op`, or the first two bytes of a frame as one big-endian value (R92). -/
def shown : Input → Nat × Nat
  | .command r => (8, r.op.toNat)
  | .frame f => (16, (be16 (f.getD 0 0) (f.getD 1 0)).toNat)

theorem shown_frameBytes (t : MsgType) (b : FrameBody) :
    shown (.frame (frameBytes t b)) = (16, (be16 1 (typeCode t)).toNat) := rfl

/-- An instruction's encoding shows its row's bits. -/
def Statement (i : Instr) : Prop := shown (encode i) = row i

theorem reset (o : DeviceId) (e : Bool) : Statement (.reset o e) := rfl
theorem cfgWrite (o : DeviceId) (e : Bool) : Statement (.cfgWrite o e) := rfl
theorem serialize (h : Header) : Statement (.serialize h) := rfl
theorem deserialize (f : Bytes) : Statement (.deserialize f) := rfl
theorem checksum (h : Header) (p : Bytes) : Statement (.checksum h p) := rfl
theorem verify (f : Bytes) : Statement (.verify f) := rfl
theorem fragCount (n : Nat) : Statement (.fragCount n) := rfl
theorem getFragment (h : Header) (p : Bytes) (j : Byte) : Statement (.getFragment h p j) := rfl
theorem addFragment (h : Header) (p : Bytes) : Statement (.addFragment h p) := rfl
theorem process (f : Bytes) : Statement (.process f) := rfl
theorem shouldRelay (h : Header) : Statement (.shouldRelay h) := rfl
theorem prepareForRelay (h : Header) : Statement (.prepareForRelay h) := rfl
theorem isForUs (h : Header) : Statement (.isForUs h) := rfl
theorem frameText (b : FrameBody) : Statement (.frameText b) :=
  (shown_frameBytes .text b).trans (by simp only [row]; decide)
theorem frameAck (b : FrameBody) : Statement (.frameAck b) :=
  (shown_frameBytes .ack b).trans (by simp only [row]; decide)
theorem frameAnnounce (b : FrameBody) : Statement (.frameAnnounce b) :=
  (shown_frameBytes .announce b).trans (by simp only [row]; decide)
theorem frameRelay (b : FrameBody) : Statement (.frameRelay b) :=
  (shown_frameBytes .relay b).trans (by simp only [row]; decide)

end Sys2Proof.Laws.Opcode
end

