-- ==== Sys2Proof/Tests/Slice0.lean ====
section
/-! SUPPORT. The model's own tests: the checks of WellFormed, a decoding of every constructor, single steps from
`95_test_vectors.md` (each named by its vector there), and for every statement with hypotheses a state and operands that
meet them. -/

namespace Sys2Proof.Tests

open Sys2Proof Sys2Proof.Machine

-- One test at a time: each waits for the kernel, and waiting in parallel takes a thread apiece.
set_option Elab.async false

/-! ### Small states and operands -/

/-- Sender `010203040506` of the vectors. -/
def sender : DeviceId := ⟨0x01, 0x02, 0x03, 0x04, 0x05, 0x06⟩

/-- `OWN_ID` of the vectors, `AABBCCDDEEFF`. -/
def own : DeviceId := ⟨0xAA, 0xBB, 0xCC, 0xDD, 0xEE, 0xFF⟩

/-- The vectors' start state. -/
def start : State := State.powerOn own true

/-- A Text header of the sender, `{v=1 t=Text q i n ttl=3 f=0 c}`. -/
def hdr (q : Half) (i n : Byte) (c : Half) : Header := ⟨1, .text, sender, q, i, n, 3, 0, c⟩

/-- Relay headers of V-RP: `{v=1 t s q i=0 n=1 ttl f=0 c=0}`. -/
def relayHdr (t : MsgType) (s : DeviceId) (q : Half) (ttl : Byte) : Header := ⟨1, t, s, q, 0, 1, ttl, 0, 0⟩

/-- The frame HI. -/
def hi : Bytes :=
  [0x01, 0x01, 0x01, 0x02, 0x03, 0x04, 0x05, 0x06, 0x00, 0x07, 0x00, 0x01, 0x03, 0x00, 0x06, 0x90, 0x68, 0x69]

/-- The header of V-FC-1: every field holds a distinct value. -/
def distinct : Header := ⟨1, .relay, ⟨0xA1, 0xA2, 0xA3, 0xA4, 0xA5, 0xA6⟩, 0xB1B2, 0xC1, 0xC2, 0xD1, 0xD2, 0xE1E2⟩

/-- The same header as the port carries it: its type is the code 4 (R72). -/
def distinctRaw : RawHeader := ⟨1, 4, ⟨0xA1, 0xA2, 0xA3, 0xA4, 0xA5, 0xA6⟩, 0xB1B2, 0xC1, 0xC2, 0xD1, 0xD2, 0xE1E2⟩

/-- The buffer of key `(q, sender)` after fragment 0 of `n`, with payload `x`. -/
def buffer (q : Half) (n : Byte) (x : Bytes) : FragmentBuffer :=
  ⟨⟨q, sender⟩, hdr q 0 n 0, [some x, none, none, none, none, none, none, none], 1, n⟩

/-- A table of one such buffer. -/
def started (q : Half) (n : Byte) (x : Bytes) : State := { start with ft := [buffer q n x] }

/-- The response of one instruction. -/
def answer (i : Instr) (s : State) : Option Response := responseOf (exec i s)

theorem next_of_nextState {r : Result} {t : State} (h : nextState r = some t) : r = .next t := by
  cases r <;> simp_all [nextState]

/-- Why a step was refused. -/
def reason : Result → Option Refusal
  | .refused r => some r
  | .next _ => none
  | .fault _ => none

theorem refused_of_reason {r : Result} {x : Refusal} (h : reason r = some x) : r = .refused x := by
  cases r <;> simp_all [reason]

/-! ### WellFormed refuses (R79, R86) -/

theorem test_deserialize_of_245_bytes_is_ill_formed : ¬ (Instr.deserialize (List.replicate 245 0)).WellFormed := by
  decide +kernel
theorem test_checksum_over_1025_bytes_is_ill_formed : ¬ (Instr.checksum distinct (List.replicate 1025 0)).WellFormed := by
  decide +kernel
theorem test_verify_of_245_bytes_is_ill_formed : ¬ (Instr.verify (List.replicate 245 0)).WellFormed := by decide +kernel
theorem test_fragCount_of_65536_is_ill_formed : ¬ (Instr.fragCount 65536).WellFormed := by decide +kernel
theorem test_getFragment_of_1025_bytes_is_ill_formed :
    ¬ (Instr.getFragment distinct (List.replicate 1025 0) 0).WellFormed := by decide +kernel
theorem test_addFragment_of_229_bytes_is_ill_formed :
    ¬ (Instr.addFragment distinct (List.replicate 229 0)).WellFormed := by decide +kernel
theorem test_process_of_245_bytes_is_ill_formed : ¬ (Instr.process (List.replicate 245 0)).WellFormed := by decide +kernel
theorem test_frames_of_245_bytes_are_ill_formed :
    ∀ i ∈ [Instr.frameText, .frameAck, .frameAnnounce, .frameRelay],
      ¬ (i ⟨sender, 0, 0, 1, 3, 0, 0, List.replicate 229 0⟩).WellFormed := by decide +kernel

/-! ### Decoding: records and frames written out from R76, R79 and R70 -/

theorem test_decode_reset : (decode (.command ⟨0x00, distinctRaw, 3, [], 9, own, true⟩)).toOption = some (.reset own true) := by
  decide +kernel
theorem test_decode_cfgWrite :
    (decode (.command ⟨0x01, distinctRaw, 3, [], 9, own, false⟩)).toOption = some (.cfgWrite own false) := by decide +kernel
theorem test_decode_serialize :
    (decode (.command ⟨0x10, distinctRaw, 3, [], 9, own, true⟩)).toOption = some (.serialize distinct) := by decide +kernel
theorem test_decode_deserialize :
    (decode (.command ⟨0x11, distinctRaw, 3, [7, 8, 9], 9, own, true⟩)).toOption = some (.deserialize [7, 8, 9]) := by
  decide +kernel
theorem test_decode_checksum :
    (decode (.command ⟨0x12, distinctRaw, 3, [7, 8, 9], 9, own, true⟩)).toOption = some (.checksum distinct [7, 8, 9]) := by
  decide +kernel
theorem test_decode_verify :
    (decode (.command ⟨0x13, distinctRaw, 3, [7, 8, 9], 9, own, true⟩)).toOption = some (.verify [7, 8, 9]) := by
  decide +kernel
theorem test_decode_fragCount :
    (decode (.command ⟨0x20, distinctRaw, 65535, [], 9, own, true⟩)).toOption = some (.fragCount 65535) := by decide +kernel
theorem test_decode_getFragment :
    (decode (.command ⟨0x21, distinctRaw, 3, [7, 8, 9], 9, own, true⟩)).toOption =
      some (.getFragment distinct [7, 8, 9] 9) := by decide +kernel
theorem test_decode_addFragment :
    (decode (.command ⟨0x22, distinctRaw, 3, [7, 8, 9], 9, own, true⟩)).toOption =
      some (.addFragment distinct [7, 8, 9]) := by decide +kernel
theorem test_decode_process :
    (decode (.command ⟨0x30, distinctRaw, 3, [7, 8, 9], 9, own, true⟩)).toOption = some (.process [7, 8, 9]) := by
  decide +kernel
theorem test_decode_shouldRelay :
    (decode (.command ⟨0x40, distinctRaw, 3, [], 9, own, true⟩)).toOption = some (.shouldRelay distinct) := by decide +kernel
theorem test_decode_prepareForRelay :
    (decode (.command ⟨0x41, distinctRaw, 3, [], 9, own, true⟩)).toOption = some (.prepareForRelay distinct) := by
  decide +kernel
theorem test_decode_isForUs :
    (decode (.command ⟨0x42, distinctRaw, 3, [], 9, own, true⟩)).toOption = some (.isForUs distinct) := by decide +kernel
theorem test_decode_frameText :
    (decode (.frame hi)).toOption = some (.frameText ⟨sender, 0x0007, 0, 1, 3, 0, 0x0690, [0x68, 0x69]⟩) := by decide +kernel
/-- The frame of V-FC-9f. -/
theorem test_decode_frameAck :
    (decode (.frame [0x01, 0x02, 0x10, 0x20, 0x30, 0x40, 0x50, 0x60, 0x12, 0x34, 0x00, 0x01, 0x00, 0x01, 0x7C, 0xE6])).toOption =
      some (.frameAck ⟨⟨0x10, 0x20, 0x30, 0x40, 0x50, 0x60⟩, 0x1234, 0, 1, 0, 1, 0x7CE6, []⟩) := by decide +kernel
/-- The frame of V-FC-9e. -/
theorem test_decode_frameAnnounce :
    (decode (.frame [0x01, 0x03, 0xAA, 0xBB, 0xCC, 0xDD, 0xEE, 0xFF, 0xFF, 0xFF, 0x00, 0x01, 0x03, 0x00, 0x90, 0xDD,
      0x6E, 0x6F, 0x64, 0x65])).toOption =
      some (.frameAnnounce ⟨own, 0xFFFF, 0, 1, 3, 0, 0x90DD, [0x6E, 0x6F, 0x64, 0x65]⟩) := by decide +kernel
/-- The bytes of V-FC-1. -/
theorem test_decode_frameRelay :
    (decode (.frame [0x01, 0x04, 0xA1, 0xA2, 0xA3, 0xA4, 0xA5, 0xA6, 0xB1, 0xB2, 0xC1, 0xC2, 0xD1, 0xD2, 0xE1, 0xE2])).toOption =
      some (.frameRelay ⟨⟨0xA1, 0xA2, 0xA3, 0xA4, 0xA5, 0xA6⟩, 0xB1B2, 0xC1, 0xC2, 0xD1, 0xD2, 0xE1E2, []⟩) := by
  decide +kernel

/-- R79: no two CMD rows share a code, and every operation has a row. -/
theorem test_command_rows_are_distinct :
    commandRows.Pairwise (fun a b => a.code ≠ b.code ∧ a.op ≠ b.op) ∧ commandRows.length = 13 := by decide +kernel
/-- R92: the four FRAME rows as table words. -/
theorem test_decode_frame_table_words :
    ((decodeTableWord 16 0x0101).map encode, (decodeTableWord 16 0x0104).map encode) =
      (some (.frame [1, 1, 0, 0, 0, 0, 0, 0, 0, 0, 0, 0, 0, 0, 0, 0]),
        some (.frame [1, 4, 0, 0, 0, 0, 0, 0, 0, 0, 0, 0, 0, 0, 0, 0])) := by decide +kernel
/-- R7, R8: the payload bound is the MTU less the header. -/
theorem test_parameters_agree : Config.par.maxFragmentPayload = Config.par.mtu - Config.par.headerSize := by decide +kernel

/-! ### Frame codec -/

theorem test_serialize_FC1 : answer (.serialize distinct) start =
    some (.okData [0x01, 0x04, 0xA1, 0xA2, 0xA3, 0xA4, 0xA5, 0xA6, 0xB1, 0xB2, 0xC1, 0xC2, 0xD1, 0xD2, 0xE1, 0xE2]) := by
  decide +kernel
theorem test_deserialize_FC5 : answer (.deserialize hi) start = some (.okHeader (hdr 7 0 1 0x0690)) := by decide +kernel
theorem test_deserialize_FC7a : answer (.deserialize (hi.take 15)) start = some .errInvalidMessage := by decide +kernel
theorem test_checksum_FC9b : answer (.checksum (hdr 7 0 1 0xFFFF) [0x68, 0x69]) start = some (.okVal 0x0690) := by
  decide +kernel
theorem test_checksum_FC9d :
    answer (.checksum ⟨1, .text, sender, 7, 0, 1, 2, 1, 0x0690⟩ [0x68, 0x69]) start = some (.okVal 0x4714) := by
  decide +kernel
/-- An unknown type with the right CRC. -/
theorem test_verify_FC10e : answer (.verify
    [0x01, 0x09, 0x01, 0x02, 0x03, 0x04, 0x05, 0x06, 0x00, 0x07, 0x00, 0x01, 0x03, 0x00, 0x21, 0xD5, 0x68, 0x69]) start =
    some (.okVal 1) := by decide +kernel
theorem test_verify_FC10c : answer (.verify (hi.take 15)) start = some (.okVal 0) := by decide +kernel
/-- The trace of V-FC-8e. -/
theorem test_crc_step_FC8e : crcStep 0xBEFF = 0x6DDF ∧ crcStep 0x6DDF = 0xDBBE ∧ crcEight 0xBEFF = 0xB915 := by
  decide +kernel

/-! ### Fragment engine -/

theorem test_fragCount_FE1 : answer (.fragCount 1824) start = some (.okVal 8) := by decide +kernel
theorem test_fragCount_FE1_too_large : answer (.fragCount 65535) start = some .errMessageTooLarge := by decide +kernel
/-- The last row of V-FE-2: index, count and checksum of the operand header are overwritten. -/
theorem test_getFragment_FE2 : answer (.getFragment (hdr 7 9 200 0x1234) [0x68, 0x69] 0) start = some (.okData hi) := by
  decide +kernel
theorem test_getFragment_FE2_none : answer (.getFragment (hdr 7 0 1 0) [0x68, 0x69] 255) start = some .none := by
  decide +kernel
/-- The last command of V-FE-3. -/
theorem test_addFragment_FE3 : answer (.addFragment (hdr 1 1 2 0) [0x21]) (started 1 2 [0x66, 0x69, 0x72, 0x73, 0x74]) =
    some (.okMessage ⟨hdr 1 0 2 0, [0x66, 0x69, 0x72, 0x73, 0x74, 0x21]⟩) := by decide +kernel
/-- The second command of V-FE-5. -/
theorem test_addFragment_FE5 : (nextState (exec (.addFragment (hdr 3 4 5 0) [0x62]) (started 3 3 [0x61]))).map (·.ft) =
    some [⟨⟨3, sender⟩, hdr 3 0 3 0, [some [0x61], none, none, none, some [0x62], none, none, none], 2, 3⟩] := by
  decide +kernel

/-! ### Inbound processor -/

theorem test_process_IP1 : (nextState (exec (.process hi) start)).map (fun t => (t.response, t.rxw)) =
    some (some (.okMessage ⟨hdr 7 0 1 0x0690, [0x68, 0x69]⟩), [⟨7, sender⟩]) := by decide +kernel
/-- The third frame of V-IP-9. -/
theorem test_process_IP9 : answer (.process
    [0x01, 0x01, 0x01, 0x02, 0x03, 0x04, 0x05, 0x06, 0x00, 0x50, 0x01, 0x02, 0x03, 0x00, 0x53, 0x66, 0x63, 0x64])
    (started 0x50 2 [0x61, 0x62]) = some (.okMessage ⟨hdr 0x50 0 2 0, [0x61, 0x62, 0x63, 0x64]⟩) := by decide +kernel
/-- The first frame of P4, as a received frame. -/
theorem test_frameText_P4 : answer (.frameText ⟨⟨1, 1, 1, 1, 1, 1⟩, 0x0101, 0, 2, 3, 0, 0xA93F, [0x31]⟩) start =
    some .none := by decide +kernel
theorem test_frameAck_FC9f : answer (.frameAck ⟨⟨0x10, 0x20, 0x30, 0x40, 0x50, 0x60⟩, 0x1234, 0, 1, 0, 1, 0x7CE6, []⟩)
    start = some (.okMessage ⟨⟨1, .ack, ⟨0x10, 0x20, 0x30, 0x40, 0x50, 0x60⟩, 0x1234, 0, 1, 0, 1, 0x7CE6⟩, []⟩) := by
  decide +kernel
/-- The last frame of V-IP-11: the key ignores the type. -/
theorem test_frameAnnounce_IP11 : answer (.frameAnnounce ⟨sender, 0, 0, 1, 3, 0, 0x154E, [0x7A, 0x7A]⟩)
    { start with rxw := [⟨0xFFFF, sender⟩, ⟨0, sender⟩] } = some .none := by decide +kernel
/-- The frame of V-FC-9g with its last byte changed. -/
theorem test_frameRelay_FC9g : answer (.frameRelay ⟨⟨0, 0, 0, 0, 0, 0⟩, 0, 0, 1, 0xFF, 0x81, 0x8CE4, [0x01]⟩) start =
    some .errChecksum := by decide +kernel

/-! ### Relay policy and system -/

theorem test_shouldRelay_RP3 : answer (.shouldRelay (relayHdr .ack ⟨1, 1, 1, 1, 1, 1⟩ 3 3)) start = some (.okVal 0) := by
  decide +kernel
theorem test_shouldRelay_RP6 :
    (nextState (exec (.shouldRelay (relayHdr .text ⟨0xAA, 0xBB, 0xCC, 0xDD, 0xEE, 0x00⟩ 1 3)) start)).map
      (fun t => (t.response, t.rlw)) = some (some (.okVal 1), [⟨1, ⟨0xAA, 0xBB, 0xCC, 0xDD, 0xEE, 0x00⟩⟩]) := by
  decide +kernel
theorem test_prepareForRelay_RP11 : answer (.prepareForRelay ⟨1, .text, sender, 7, 0, 1, 0, 0x80, 0x0690⟩) start =
    some (.okHeader ⟨1, .text, sender, 7, 0, 1, 0, 0x81, 0x0690⟩) := by decide +kernel
theorem test_prepareForRelay_RP13 : answer (.prepareForRelay ⟨1, .text, sender, 7, 0, 1, 255, 0xFE, 0x0690⟩) start =
    some (.okHeader ⟨1, .text, sender, 7, 0, 1, 254, 0xFF, 0x0690⟩) := by decide +kernel
theorem test_isForUs_RP14 : answer (.isForUs (relayHdr .ack own 0 0)) start = some (.okVal 1) := by decide +kernel
theorem test_reset_SY1 :
    nextState (exec (.reset ⟨0x11, 0x22, 0x33, 0x44, 0x55, 0x66⟩ false) { started 1 2 [0x41] with rxw := [⟨7, sender⟩] }) =
      some ⟨⟨0x11, 0x22, 0x33, 0x44, 0x55, 0x66⟩, false, [], [], [], [], some .ok⟩ := by decide +kernel
theorem test_cfgWrite_SY3 :
    (nextState (exec (.cfgWrite ⟨5, 5, 5, 5, 5, 5⟩ true) { started 1 2 [0x41] with rxw := [⟨7, sender⟩] })).map
      (fun t => (t.ownId, t.ft, t.rxw)) = some (⟨5, 5, 5, 5, 5, 5⟩, [buffer 1 2 [0x41]], [⟨7, sender⟩]) := by decide +kernel

/-! ### Host software -/

/-- V-HS-3. -/
theorem test_parse_HS3 : parseText [0x68, 0x69] = [0x68, 0x69] ∧ parseText [0x68, 0xFF, 0x69] = [0x68] ∧
    parseText [0xFF] = [] ∧ parseText [] = [] := by decide +kernel
/-- V-HS-2. -/
theorem test_create_HS2 : (createText sender 7 (List.replicate 1024 0)).isSome = true ∧
    createText sender 7 (List.replicate 1025 0) = none := by decide +kernel
/-- V-HS-1: what GET_FRAGMENT emits for the created Message. -/
theorem test_create_HS1 : (createText sender 7 [0x68, 0x69]).map (fun m => getFragment m.header m.payload 0) =
    some (.okData hi) := by decide +kernel
/-- V-IP-1 with V-RP-10 and V-FC-9d: HI received, dispatched as text, and relayed with the new checksum 0x4714. -/
theorem test_receiveFrame_hi : (receiveFrame hi start).map (·.1) =
    some [.answered (.okMessage ⟨hdr 7 0 1 0x0690, [0x68, 0x69]⟩), .dispatched (.text [0x68, 0x69]),
      .answered (.okVal 1), .answered (.okVal 1),
      .answered (.okHeader ⟨1, .text, sender, 7, 0, 1, 2, 1, 0x0690⟩), .answered (.okVal 1),
      .answered (.okData ((hi.set 12 2).set 13 1 |>.set 14 0x47 |>.set 15 0x14)),
      .transmitted ((hi.set 12 2).set 13 1 |>.set 14 0x47 |>.set 15 0x14)] := by decide +kernel
/-- P2, steps 1 and 2 of the host's part: a corrupted frame is logged, and the next is received. -/
theorem test_receiveFrames_P2 : (receiveFrames [hi.set 17 0x68, hi] { start with relayEn := false }).map (·.1) =
    some [[.answered .errChecksum, .logged .errChecksum],
      [.answered (.okMessage ⟨hdr 7 0 1 0x0690, [0x68, 0x69]⟩), .dispatched (.text [0x68, 0x69]),
        .answered (.okVal 1), .answered (.okVal 0)]] := by decide +kernel
/-- V-HS-4. -/
theorem test_createAnnounce_HS4 : createAnnounce own 0xFFFF [0x6E, 0x6F, 0x64, 0x65] =
    ⟨⟨1, .announce, own, 0xFFFF, 0, 1, 3, 0, 0⟩, [0x6E, 0x6F, 0x64, 0x65]⟩ := by decide +kernel

/-! ### Witnesses: for each statement with hypotheses, a state and operands that meet them -/

/-- A payload of five fragments, and the sequence of its key. -/
def long : Bytes := List.replicate 1024 0x5A

/-- The frame `Z` of V-IP-13: its total is 0. -/
def zeroHdr : Header := ⟨1, .text, ⟨1, 1, 1, 1, 1, 1⟩, 0x0200, 0, 0, 3, 0, 0x20DA⟩

/-- A full table of four buffers, oldest first. -/
def full : State := { start with ft := [buffer 1 2 [0x61], buffer 2 2 [0x61], buffer 3 2 [0x61], buffer 4 2 [0x61]] }

/-- A buffer of five with four slices of 228 bytes. -/
def nearlyDone : State :=
  { start with ft := [⟨⟨5, sender⟩, hdr 5 0 5 0, [some (List.replicate 228 0), some (List.replicate 228 0),
      some (List.replicate 228 0), some (List.replicate 228 0), none, none, none, none], 4, 5⟩] }

/-- `start` with one input presented. -/
def presenting (inp : Input) : State := { start with pending := [inp] }

theorem witness_DecodeOfEncodeIsIdentity :
    (Instr.getFragment distinct long 255).WellFormed ∧
    (Instr.frameRelay ⟨own, 0xFFFF, 255, 255, 255, 255, 0xFFFF, List.replicate 228 0xFF⟩).WellFormed := by decide +kernel
theorem witness_FrameDecodingDropsNoBit :
    decode (.frame hi) = .ok (.frameText ⟨sender, 0x0007, 0, 1, 3, 0, 0x0690, [0x68, 0x69]⟩) ∧
    decode (.frame [1, 2, 3]) = .ok (.process [1, 2, 3]) := ⟨rfl, rfl⟩
theorem witness_StepRunsTheDecodedInstruction :
    (presenting (.frame hi)).pending = [.frame hi] ∧
    decode (.frame hi) = .ok (.frameText ⟨sender, 0x0007, 0, 1, 3, 0, 0x0690, [0x68, 0x69]⟩) := ⟨rfl, rfl⟩
theorem witness_StepWithoutInputChangesNothing : start.pending = [] := rfl
theorem witness_UnassignedCommandsAreRefused : ∀ c ∈ ([0x02, 0x0F, 0x14, 0x43, 0xFF] : List Byte),
    (presenting (.command (blankCommand c))).pending = [.command (blankCommand c)] ∧
    c ∉ ([0x00, 0x01, 0x10, 0x11, 0x12, 0x13, 0x20, 0x21, 0x22, 0x30, 0x40, 0x41, 0x42] : List Byte) := by decide +kernel
/-- One record for each clause, each just outside its range, with the refusal of the statement. -/
theorem witness_OperandsOutOfRangeAreRefused :
    step (presenting (.command { blankCommand 0x42 with hdr := { blankHeader with msgType := 5 } })) =
      .refused (.messageType 5) ∧
    step (presenting (.command { blankCommand 0x13 with len := 245, data := List.replicate 245 0 })) =
      .refused .operandRange ∧
    step (presenting (.command { blankCommand 0x12 with len := 1025, data := List.replicate 1025 0 })) =
      .refused .operandRange ∧
    step (presenting (.command { blankCommand 0x22 with len := 229, data := List.replicate 229 0 })) =
      .refused .operandRange ∧
    step (presenting (.command { blankCommand 0x20 with len := 65536 })) = .refused .operandRange ∧
    step (presenting (.frame (List.replicate 245 0))) = .refused .operandRange ∧
    step (presenting (.command { blankCommand 0x30 with len := 1 })) = .refused (.dataLength 1) ∧
    step (presenting (.command { blankCommand 0x21 with len := 1, data := [0, 0] })) = .refused (.dataLength 1) := by
  refine ⟨?_, ?_, ?_, ?_, ?_, ?_, ?_, ?_⟩ <;> exact refused_of_reason (by decide +kernel)
theorem witness_EveryOperationEndsInAResponse :
    ∀ i ∈ [Instr.process (List.replicate 244 0), .fragCount 65535, .addFragment distinct (List.replicate 228 0),
      .reset own true, .isForUs distinct], i.WellFormed := by decide +kernel
theorem witness_DeserializeReadsEveryField : (List.replicate 244 (1 : Byte)).length ≤ 244 ∧ hi.length ≤ 244 := by
  decide +kernel
theorem witness_SerializeAndDeserializeAreInverse : distinct.version = 1 ∧
    (hi.take 16).length = 16 ∧ (hi.take 16).getD 0 0 = 1 ∧ (hi.take 16).getD 1 0 ∈ ([1, 2, 3, 4] : List Byte) := by
  decide +kernel
theorem witness_ChecksumCoversHeaderAndPayload : long.length ≤ 1024 ∧ ([] : Bytes).length ≤ 1024 := by decide +kernel
theorem witness_VerifyComparesWithStoredValue : hi.length ≤ 244 ∧ (hi.take 15).length ≤ 244 := by decide +kernel
theorem witness_SingleBitFlipFailsVerification : verify hi = true ∧ 17 < hi.length ∧ 7 < 8 := by decide +kernel
theorem witness_FragCountAnswersCeiling : ∀ n ∈ [0, 228, 229, 1824, 1825, 65535], n ≤ 65535 := by decide +kernel
theorem witness_GetFragmentBuildsTheFrame : long.length ≤ 1024 := by decide +kernel
theorem witness_EmittedFramesAreValid :
    [0x68, 0x69].length ≤ 1024 ∧ (hdr 7 9 200 0x1234).version = 1 ∧
    exec (.getFragment (hdr 7 9 200 0x1234) [0x68, 0x69] 0) start = .next { start with response := some (.okData hi) } :=
  ⟨by decide, rfl, next_of_nextState (by decide +kernel)⟩
/-- An index at its own total, and an index of 8. -/
theorem witness_AddFragmentRejectsIndexOutOfRange :
    ((hdr 1 2 2 0).totalFragments.toNat ≤ (hdr 1 2 2 0).fragmentIndex.toNat) ∧
    8 ≤ (hdr 1 8 9 0).fragmentIndex.toNat ∧ [0x78].length ≤ 228 := by decide +kernel
theorem witness_AddFragmentStartsABuffer :
    [0x78].length ≤ 228 ∧ (hdr 9 7 8 0).fragmentIndex.toNat < (hdr 9 7 8 0).totalFragments.toNat ∧
    (hdr 9 7 8 0).fragmentIndex.toNat < 8 ∧ 1 < (hdr 9 7 8 0).totalFragments.toNat ∧
    ∀ b ∈ full.ft, b.key ≠ ⟨9, sender⟩ := by decide +kernel
theorem witness_AddFragmentCompletesASingleFragment :
    [0x78].length ≤ 228 ∧ (hdr 9 0 1 0).fragmentIndex = 0 ∧ (hdr 9 0 1 0).totalFragments = 1 ∧
    ∀ b ∈ full.ft, b.key ≠ ⟨9, sender⟩ := by decide +kernel
theorem witness_AddFragmentIgnoresADuplicateIndex :
    Machine.Inv full ∧ [0x78].length ≤ 228 ∧ (hdr 1 0 2 0).fragmentIndex.toNat < (hdr 1 0 2 0).totalFragments.toNat ∧
    (hdr 1 0 2 0).fragmentIndex.toNat < 8 ∧ buffer 1 2 [0x61] ∈ full.ft ∧ (buffer 1 2 [0x61]).key = ⟨1, sender⟩ ∧
    (buffer 1 2 [0x61]).slots[(hdr 1 0 2 0).fragmentIndex.toNat]? = some (some [0x61]) := by decide +kernel
theorem witness_AddFragmentStoresIntoItsBuffer :
    Machine.Inv (started 3 3 [0x61]) ∧ [0x62].length ≤ 228 ∧
    (hdr 3 4 5 0).fragmentIndex.toNat < (hdr 3 4 5 0).totalFragments.toNat ∧ (hdr 3 4 5 0).fragmentIndex.toNat < 8 ∧
    buffer 3 3 [0x61] ∈ (started 3 3 [0x61]).ft ∧ (buffer 3 3 [0x61]).key = ⟨3, sender⟩ ∧
    (buffer 3 3 [0x61]).slots[(hdr 3 4 5 0).fragmentIndex.toNat]? = some none ∧
    (buffer 3 3 [0x61]).receivedCount + 1 ≠ (buffer 3 3 [0x61]).totalExpected.toNat := by decide +kernel
/-- The three outcomes of a completion: the Message, a missing slot, and more than 1024 bytes. -/
theorem witness_AddFragmentCompletesItsBuffer :
    (Machine.Inv full ∧ (hdr 1 1 2 0).fragmentIndex.toNat < (hdr 1 1 2 0).totalFragments.toNat ∧
      buffer 1 2 [0x61] ∈ full.ft ∧ (buffer 1 2 [0x61]).slots[(hdr 1 1 2 0).fragmentIndex.toNat]? = some none ∧
      (buffer 1 2 [0x61]).receivedCount + 1 = (buffer 1 2 [0x61]).totalExpected.toNat) ∧
    (answer (.addFragment (hdr 1 4 5 0) [0x62]) full = some .errFragmentation ∧
      (buffer 1 2 [0x61]).slots[(hdr 1 4 5 0).fragmentIndex.toNat]? = some none) ∧
    (Machine.Inv nearlyDone ∧
      answer (.addFragment (hdr 5 4 5 0) (List.replicate 113 0)) nearlyDone = some .errFragmentation) := by decide +kernel
theorem witness_BufferOfMoreThanEightNeverCompletes :
    Machine.Inv (started 9 9 [0x41]) ∧ [0x42].length ≤ 228 ∧ buffer 9 9 [0x41] ∈ (started 9 9 [0x41]).ft ∧
    (buffer 9 9 [0x41]).key = ⟨(hdr 9 7 9 0).sequence, (hdr 9 7 9 0).senderId⟩ ∧
    8 < (buffer 9 9 [0x41]).totalExpected.toNat := by decide +kernel
theorem witness_ReassemblyInAnyOrderGivesThePayload :
    long.length ≤ 1024 ∧ [4, 2, 0, 1, 3].Perm (List.range (max 1 ((long.length + 227) / 228))) ∧
    ∀ b ∈ full.ft, b.key ≠ ⟨9, sender⟩ := by decide +kernel
theorem witness_SentFramesAreReceivedInAnyOrder :
    long.length ≤ 1024 ∧ (hdr 9 0 1 0).version = 1 ∧
    [4, 2, 0, 1, 3].Perm (List.range (max 1 ((long.length + 227) / 228))) ∧
    (∀ b ∈ full.ft, b.key ≠ ⟨9, sender⟩) ∧ (⟨9, sender⟩ : Key) ∉ full.rxw := by decide +kernel
/-- With as many further keys as the capacity less one, and with as many as the capacity. -/
theorem witness_WindowRemembersTheLastRecords :
    0 < 2 ∧ ([⟨1, own⟩] : List Key).length ≤ 2 ∧ (⟨7, sender⟩ : Key) ∉ ([⟨1, own⟩] : List Key) ∧
    (⟨7, sender⟩ : Key) ∉ ([⟨8, sender⟩] : List Key) ∧ (⟨7, sender⟩ : Key) ∉ ([⟨8, sender⟩, ⟨9, sender⟩] : List Key) := by
  decide +kernel
/-- 15 bytes, version 2, types 0 and 5. -/
theorem witness_ProcessRejectsMalformedFrames :
    (hi.take 15).length < 16 ∧ (hi.set 0 2).getD 0 0 ≠ 1 ∧ (hi.set 1 0).getD 1 0 ∉ ([1, 2, 3, 4] : List Byte) ∧
    (hi.set 1 5).getD 1 0 ∉ ([1, 2, 3, 4] : List Byte) ∧ hi.length ≤ 244 := by decide +kernel
theorem witness_ProcessDropsKnownKeys :
    (hdr 7 0 1 0).version = 1 ∧ [0x68, 0x69].length ≤ 228 ∧
    (⟨7, sender⟩ : Key) ∈ ({ start with rxw := [⟨7, sender⟩] } : State).rxw := by decide +kernel
theorem witness_ProcessReportsChecksumMismatch :
    (hdr 7 0 1 0x0690).version = 1 ∧ [0x68, 0x68].length ≤ 228 ∧ (⟨7, sender⟩ : Key) ∉ start.rxw ∧
    crc16 ((serialize (hdr 7 0 1 0x0690)).take 14 ++ [0x68, 0x68]) ≠ (hdr 7 0 1 0x0690).checksum := by decide +kernel
theorem witness_ProcessDeliversSingleFragments :
    (hdr 7 0 1 0x0690).version = 1 ∧ [0x68, 0x69].length ≤ 228 ∧ (⟨7, sender⟩ : Key) ∉ start.rxw ∧
    crc16 ((serialize (hdr 7 0 1 0x0690)).take 14 ++ [0x68, 0x69]) = (hdr 7 0 1 0x0690).checksum ∧
    (hdr 7 0 1 0x0690).totalFragments = 1 := by decide +kernel
theorem witness_ProcessOfZeroTotalFollowsThePolicy :
    zeroHdr.version = 1 ∧ [0x7A].length ≤ 228 ∧ (⟨zeroHdr.sequence, zeroHdr.senderId⟩ : Key) ∉ start.rxw ∧
    crc16 ((serialize zeroHdr).take 14 ++ [0x7A]) = zeroHdr.checksum ∧ zeroHdr.totalFragments = 0 := by decide +kernel
/-- The two frames of V-IP-9, where the second completes, and the frame of V-IP-6, which is rejected. -/
theorem witness_ProcessRoutesFragmentsToReassembly :
    (crc16 ((serialize (hdr 0x50 0 2 0x1062)).take 14 ++ [0x61, 0x62]) = (hdr 0x50 0 2 0x1062).checksum ∧
      1 < (hdr 0x50 0 2 0x1062).totalFragments.toNat ∧ (⟨0x50, sender⟩ : Key) ∉ start.rxw) ∧
    crc16 ((serialize (hdr 0x50 1 2 0x5366)).take 14 ++ [0x63, 0x64]) = (hdr 0x50 1 2 0x5366).checksum ∧
    crc16 ((serialize (hdr 9 5 3 0xACB9)).take 14 ++ [0x78]) = (hdr 9 5 3 0xACB9).checksum := by decide +kernel
theorem witness_ProcessOfADeliveredFrameAgainIsNone :
    exec (.process hi) start = .next
      { start with rxw := [⟨7, sender⟩], response := some (.okMessage ⟨hdr 7 0 1 0x0690, [0x68, 0x69]⟩) } :=
  next_of_nextState (by decide +kernel)
theorem witness_FrameRowsAreProcessedAsTheirBytes :
    (⟨own, 0, 0, 1, 0, 0, 0, List.replicate 228 0⟩ : FrameBody).payload.length ≤ 228 := by decide +kernel
/-- HI and the frames of V-FC-9e to V-FC-9g: each of the four types with its checksum. -/
theorem witness_FrameRowsDeliverSingleFragments :
    crc16 ((serialize ⟨1, .text, sender, 7, 0, 1, 3, 0, 0x0690⟩).take 14 ++ [0x68, 0x69]) = 0x0690 ∧
    crc16 ((serialize ⟨1, .ack, ⟨0x10, 0x20, 0x30, 0x40, 0x50, 0x60⟩, 0x1234, 0, 1, 0, 1, 0x7CE6⟩).take 14 ++ []) = 0x7CE6 ∧
    crc16 ((serialize ⟨1, .announce, own, 0xFFFF, 0, 1, 3, 0, 0x90DD⟩).take 14 ++ [0x6E, 0x6F, 0x64, 0x65]) = 0x90DD ∧
    crc16 ((serialize ⟨1, .relay, ⟨0, 0, 0, 0, 0, 0⟩, 0, 0, 1, 255, 0x81, 0x8CE4⟩).take 14 ++ [0x00]) = 0x8CE4 ∧
    (⟨7, sender⟩ : Key) ∉ start.rxw := by decide +kernel
theorem witness_RelayedKeyIsNotRelayedAgain :
    exec (.shouldRelay (relayHdr .text sender 4 3)) start =
      .next { start with rlw := [⟨4, sender⟩], response := some (.okVal 1) } ∧
    (relayHdr .relay sender 4 9).sequence = (relayHdr .text sender 4 3).sequence ∧
    (relayHdr .relay sender 4 9).senderId = (relayHdr .text sender 4 3).senderId :=
  ⟨next_of_nextState (by decide +kernel), rfl, rfl⟩
/-- Two headers that differ in all that is not read, and two states that differ in their receive side. -/
theorem witness_RelayDecisionReadsOnlyItsInputs :
    (relayHdr .text sender 4 3).senderId = (hdr 4 5 6 7).senderId ∧
    (relayHdr .text sender 4 3).sequence = (hdr 4 5 6 7).sequence ∧
    ((relayHdr .relay sender 4 9).ttl = 0 ↔ (hdr 4 5 6 7).ttl = 0) ∧
    ((relayHdr .relay sender 4 9).msgType = .ack ↔ (hdr 4 5 6 7).msgType = .ack) ∧
    start.ownId = full.ownId ∧ start.relayEn = full.relayEn ∧ start.rlw = full.rlw ∧
    (nextState (exec (.shouldRelay (relayHdr .text sender 4 3)) start)).isSome = true ∧
    (nextState (exec (.shouldRelay (hdr 4 5 6 7)) full)).isSome = true := by decide +kernel
theorem witness_PureOperationsReadAndWriteNothing :
    ∀ i ∈ [Instr.serialize distinct, .deserialize hi, .checksum distinct hi, .verify hi, .fragCount 7,
      .getFragment distinct hi 0, .prepareForRelay distinct, .isForUs distinct], i.WellFormed := by decide +kernel
theorem witness_WritersLeaveTheRestOfTheState :
    ∀ i ∈ [Instr.addFragment (hdr 9 0 2 0) [1], .process hi, .frameText ⟨sender, 7, 0, 1, 3, 0, 0x0690, [0x68, 0x69]⟩,
      .shouldRelay (hdr 9 0 2 0)], (nextState (exec i full)).isSome = true := by decide +kernel
theorem witness_SystemOperationsAreIdempotent :
    ∀ i ∈ [Instr.reset own true, .cfgWrite own true], (nextState (exec i full)).isSome = true := by decide +kernel
theorem witness_ProcessReadsOnlyWindowAndTable :
    start.rxw = State.reset.rxw ∧ start.ft = State.reset.ft ∧ (nextState (exec (.process hi) start)).isSome = true ∧
    (nextState (exec (.process hi) State.reset)).isSome = true := by decide +kernel
theorem witness_ErrorsRecordNoKey :
    answer (.process (hi.take 15)) full = some .errInvalidMessage ∧
    answer (.process (hi.set 17 0)) full = some .errChecksum ∧
    answer (.addFragment (hdr 1 5 2 0) [1]) full = some .errFragmentation ∧
    answer (.fragCount 1825) full = some .errMessageTooLarge := by decide +kernel
/-- A new key on a full table, a slice for an old buffer, a completion, and the two PROCESS clauses. -/
theorem witness_TableKeepsCreationOrder :
    (∀ ik ∈ [(Instr.addFragment (hdr 9 0 2 0) [1], [2, 3, 4, 9]), (.addFragment (hdr 1 1 2 0) [1], [2, 3, 4]),
        (.addFragment (hdr 2 0 2 0) [1], [1, 2, 3, 4]), (.addFragment (hdr 9 0 1 0) [1], [2, 3, 4])],
      (nextState (exec ik.1 full)).map (fun t => t.ft.map (·.key.sequence)) = some ik.2) ∧
    (deserialize hi = some (hdr 7 0 1 0x0690) ∧ (nextState (exec (.process hi) full)).isSome = true) ∧
    (nextState (exec (.frameText ⟨sender, 7, 0, 1, 3, 0, 0x0690, [0x68, 0x69]⟩) full)).isSome = true ∧
    (deserialize (hi.take 15) = none ∧ (nextState (exec (.process (hi.take 15)) full)).isSome = true) := by
  decide +kernel
theorem witness_ResponsesCarryAtMost1024Bytes :
    (answer (.addFragment (hdr 5 4 5 0) (List.replicate 112 0)) nearlyDone).map (fun r => (responseBytes r).length) =
      some 1024 := by decide +kernel
theorem witness_EveryStepKeepsTheInvariant :
    Machine.Inv full ∧
    (nextState (step { full with pending := [.command { blankCommand 0x22 with hdr := rawOf (hdr 9 0 2 0) }] })).map
      (fun t => t.ft.map (·.key.sequence)) = some [2, 3, 4, 9] := by decide +kernel
theorem witness_CreatedTextIsSent :
    createText sender 7 [0x68, 0x69] = some ⟨hdr 7 0 1 0, [0x68, 0x69]⟩ ∧ (createText sender 7 long).isSome = true := by
  decide +kernel

end Sys2Proof.Tests
end

section
/-! PROOFS. The state of the block (`10_state.md`): what an instruction can write, the invariant every step keeps, and
the creation order of the Fragment Table. -/

namespace Sys2Proof.Machine

/-! ### What an instruction can write -/

theorem presented_eq_next_iff {i : Instr} {k : Result} {t : State} :
    presented i k = .next t ↔ i.WellFormed ∧ k = .next t := by
  by_cases hw : i.WellFormed
  · rw [presented_of_wellFormed hw]
    exact ⟨fun e => ⟨hw, e⟩, And.right⟩
  · rw [presented_of_not_wellFormed hw]
    constructor
    · intro e
      cases e
    · rintro ⟨hw', -⟩
      exact absurd hw' hw

theorem respond_eq_next_iff {s t : State} {r : Response} : respond s r = .next t ↔ t = s.withResponse r := by
  rw [respond_eq_next, Host.Outcome.next.injEq]
  exact eq_comm

theorem exec_addFragment_eq_next_iff {h : Header} {p : Bytes} {s t : State} :
    exec (.addFragment h p) s = .next t ↔ p.length ≤ 228 ∧
      t = (s.withFt (addFragment Config.fragRejectOrder s.ft h p).1).withResponse
        (addResponse (addFragment Config.fragRejectOrder s.ft h p).2) := by
  change presented _ _ = _ ↔ _
  rw [presented_eq_next_iff, respond_eq_next_iff]
  simp [Instr.WellFormed, Instr.wellFormed]

theorem exec_process_eq_next_iff {f : Bytes} {s t : State} :
    exec (.process f) s = .next t ↔ f.length ≤ 244 ∧
      t = (process Config.zeroTotalPolicy Config.fragRejectOrder s f).1.withResponse
        (process Config.zeroTotalPolicy Config.fragRejectOrder s f).2 := by
  change presented _ (respond _ _) = _ ↔ _
  rw [presented_eq_next_iff, respond_eq_next_iff]
  simp [Instr.WellFormed, Instr.wellFormed]

/-- A received frame of any class is the PROCESS command on its bytes, its length bound included (log entry 2). -/
theorem exec_frameInstr (ty : MsgType) (b : FrameBody) (s : State) :
    exec (frameInstr ty b) s = exec (.process (frameBytes ty b)) s := by
  have hw : (frameInstr ty b).wellFormed = (Instr.process (frameBytes ty b)).wellFormed := by
    cases ty <;> simp [frameInstr, Instr.wellFormed]
  have he : exec (frameInstr ty b) s = presented (frameInstr ty b) (receive s (frameBytes ty b)) := by
    cases ty <;> rfl
  rw [he, presented, hw]
  rfl

/-- The ways an instruction that has a next state can write it. -/
inductive Effect (s : State) : State → Prop where
  /-- Nothing is written but the answer. -/
  | answered (r : Response) : Effect s (s.withResponse r)
  | reset (o : DeviceId) (e : Bool) : Effect s ((resetBlock s o e).withResponse .ok)
  | configured (o : DeviceId) (e : Bool) : Effect s ((s.withConfig o e).withResponse .ok)
  | fragmentAdded (h : Header) (p : Bytes) (hp : p.length ≤ 228) :
    Effect s ((s.withFt (addFragment Config.fragRejectOrder s.ft h p).1).withResponse
      (addResponse (addFragment Config.fragRejectOrder s.ft h p).2))
  | received (f : Bytes) (hf : f.length ≤ 244) :
    Effect s ((process Config.zeroTotalPolicy Config.fragRejectOrder s f).1.withResponse
      (process Config.zeroTotalPolicy Config.fragRejectOrder s f).2)
  | relayDecided (h : Header) : Effect s ((shouldRelay s h).1.withResponse (shouldRelay s h).2)

theorem effect_of_respond {s t : State} {r : Response} (e : respond s r = .next t) : Effect s t :=
  respond_eq_next_iff.mp e ▸ .answered r

theorem effect_of_process {s t : State} {f : Bytes} (e : exec (.process f) s = .next t) : Effect s t := by
  obtain ⟨hf, rfl⟩ := exec_process_eq_next_iff.mp e
  exact .received f hf

/-- Everything a next state of an instruction can be. -/
theorem exec_effect {i : Instr} {s t : State} (e : exec i s = .next t) : Effect s t := by
  cases i with
  | reset o b =>
    cases e
    exact .reset o b
  | cfgWrite o b =>
    cases e
    exact .configured o b
  | addFragment h p =>
    obtain ⟨hp, rfl⟩ := exec_addFragment_eq_next_iff.mp e
    exact .fragmentAdded h p hp
  | shouldRelay h =>
    cases e
    exact .relayDecided h
  | serialize h =>
    cases e
    exact .answered _
  | prepareForRelay h =>
    cases e
    exact .answered _
  | isForUs h =>
    cases e
    exact .answered _
  | process f => exact effect_of_process e
  | frameText b => exact effect_of_process ((exec_frameInstr .text b s).symm.trans e)
  | frameAck b => exact effect_of_process ((exec_frameInstr .ack b s).symm.trans e)
  | frameAnnounce b => exact effect_of_process ((exec_frameInstr .announce b s).symm.trans e)
  | frameRelay b => exact effect_of_process ((exec_frameInstr .relay b s).symm.trans e)
  | checksum h p => exact effect_of_respond (presented_eq_next_iff.mp e).2
  | verify f => exact effect_of_respond (presented_eq_next_iff.mp e).2
  | getFragment h p j => exact effect_of_respond (presented_eq_next_iff.mp e).2
  | deserialize f =>
    have ha := (presented_eq_next_iff.mp e).2
    split at ha <;> exact effect_of_respond ha
  | fragCount n =>
    have ha := (presented_eq_next_iff.mp e).2
    split at ha <;> exact effect_of_respond ha

/-! ### The invariant -/

/-- A full window makes room first, so it stays within its bound; a key it did not hold stays single (R142). -/
theorem windowOk_record {w : List Key} {cap : Nat} {k : Key} (hc : 0 < cap) (hw : WindowOk w cap) (hk : k ∉ w) :
    WindowOk (record w cap k) cap :=
  ⟨record_length_le hc hw.1 k, record_nodup hw.2 hk⟩

theorem inv_powerOn (o : DeviceId) (e : Bool) : Inv (State.powerOn o e) := by
  simp [Inv, TableOk, WindowOk]

/-- Routing a frame whose key the receive window does not hold keeps the invariant. -/
theorem inv_route {s : State} (hs : Inv s) (zp : ZeroTotalPolicy) {h : Header} (hk : keyOf h ∉ s.rxw) {p : Bytes}
    (hp : p.length ≤ 228) : Inv (route zp Config.fragRejectOrder s h p).1 := by
  obtain ⟨hft, hrxw, hrlw⟩ := hs
  have hrecorded : WindowOk (record s.rxw 32 (keyOf h)) 32 := windowOk_record (by decide) hrxw hk
  have hadded := tableOk_addFragment hft h hp
  rcases route_cases zp Config.fragRejectOrder s h p with
    ⟨-, ⟨t, m, ha, e⟩ | ⟨t, ha, e⟩ | ⟨t, ha, e⟩⟩ | ⟨-, e | ⟨-, e | e⟩⟩ <;> rw [e]
  case inl.inl => rw [ha] at hadded; exact ⟨hadded, hrecorded, hrlw⟩
  case inl.inr.inl => rw [ha] at hadded; exact ⟨hadded, hrxw, hrlw⟩
  case inl.inr.inr => rw [ha] at hadded; exact ⟨hadded, hrxw, hrlw⟩
  case inr.inl => exact ⟨hft, hrecorded, hrlw⟩
  case inr.inr.inl => exact ⟨hft, hrxw, hrlw⟩
  case inr.inr.inr => exact ⟨hft, hrxw, hrlw⟩

theorem inv_process {s : State} (hs : Inv s) (zp : ZeroTotalPolicy) {f : Bytes} (hf : f.length ≤ 244) :
    Inv (process zp Config.fragRejectOrder s f).1 := by
  rcases process_cases zp Config.fragRejectOrder s f with
    ⟨-, e⟩ | ⟨h, -, -, e⟩ | ⟨h, -, -, -, e⟩ | ⟨h, -, hk, -, e⟩ <;> rw [e]
  case inr.inr.inr => exact inv_route hs zp hk (by rw [List.length_drop]; omega)
  all_goals exact hs

theorem inv_shouldRelay {s : State} (hs : Inv s) (h : Header) : Inv (shouldRelay s h).1 := by
  rcases shouldRelay_cases s h with ⟨-, e⟩ | ⟨hb, e⟩ <;> rw [e]
  · exact hs
  · obtain ⟨hft, hrxw, hrlw⟩ := hs
    have hk : keyOf h ∉ s.rlw := fun hm => by
      rw [(relayBarred_eq_true_iff s h).mpr (.inr (.inr (.inl hm)))] at hb
      cases hb
    exact ⟨hft, hrxw, windowOk_record (by decide) hrlw hk⟩

/-- The invariant speaks of the three tables alone, so the answer does not matter to it. -/
theorem inv_of_effect {s t : State} (hs : Inv s) (e : Effect s t) : Inv t := by
  cases e with
  | answered r => exact hs
  | reset o b => exact inv_powerOn o b
  | configured o b => exact hs
  | fragmentAdded h p hp => exact ⟨tableOk_addFragment hs.1 h hp, hs.2⟩
  | received f hf => exact inv_process hs Config.zeroTotalPolicy hf
  | relayDecided h => exact inv_shouldRelay hs h

/-- Settles O57: a step runs nothing or one instruction, and each of its effects keeps the invariant. -/
theorem everyStepKeepsTheInvariant : Obligations.EveryStepKeepsTheInvariant := by
  intro s t hs e
  rcases step_cases e with ⟨-, rfl⟩ | ⟨inp, rest, i, -, -, he⟩
  · exact hs
  · have hs' : Inv (s.withPending rest) := hs
    exact inv_of_effect hs' (exec_effect he)

/-- Settles O58. -/
theorem theInvariantHoldsAtPowerOn : Obligations.TheInvariantHoldsAtPowerOn :=
  ⟨inv_powerOn, inv_powerOn _ _⟩

/-! ### Power-on and RESET -/

/-- Settles O48: each table, each register and the state after RESET agree by computation. -/
theorem powerOnIsResetWithoutOperands : Obligations.PowerOnIsResetWithoutOperands :=
  fun _ _ _ => ⟨rfl, rfl, rfl, rfl, rfl, rfl⟩

/-- Settles O49: the model's choice of log entry 3, by definition of State.reset. -/
theorem resetStateIsPowerOnAtZero : Obligations.ResetStateIsPowerOnAtZero := rfl

/-! ### The keys of the Fragment Table, oldest first -/

/-- The keys of a table, in its order. -/
abbrev tableKeys (t : List FragmentBuffer) : List Key := t.map (·.key)

theorem find_eq_none_iff_not_mem_keys (t : List FragmentBuffer) (k : Key) : find t k = none ↔ k ∉ tableKeys t := by
  simp [find_eq_none_iff]

theorem tableKeys_makeRoom (t : List FragmentBuffer) :
    tableKeys (makeRoom t) = if 4 ≤ (tableKeys t).length then (tableKeys t).drop 1 else tableKeys t := by
  rw [makeRoom, Config.par_fragTableCap, List.length_map]
  split
  · exact List.map_drop
  · rfl

theorem tableKeys_obtain (t : List FragmentBuffer) (h : Header) :
    tableKeys (obtain t h).1 =
      if keyOf h ∈ tableKeys t then tableKeys t else tableKeys (makeRoom t) ++ [keyOf h] := by
  rcases obtain_cases t h with ⟨b, hf, e⟩ | ⟨hf, e⟩ <;> rw [e]
  · obtain ⟨hb, hk⟩ := find_eq_some hf
    rw [if_pos (hk ▸ List.mem_map_of_mem hb)]
  · rw [if_neg ((find_eq_none_iff_not_mem_keys t _).mp hf)]
    simp [newBuffer]

theorem tableKeys_removeBuffer (t : List FragmentBuffer) (k : Key) :
    tableKeys (removeBuffer t k) = (tableKeys t).filter fun x => decide (x ≠ k) := by
  rw [removeBuffer, List.filter_map]
  congr 1
  apply List.filter_congr
  intro x _
  simp [bne, Bool.beq_eq_decide_eq]

/-- A buffer that completes leaves the others in their order; a new one leaves the room made for it (R132). -/
theorem tableKeys_removeBuffer_obtain (t : List FragmentBuffer) (h : Header) :
    tableKeys (removeBuffer (obtain t h).1 (keyOf h)) =
      if keyOf h ∈ tableKeys t then (tableKeys t).filter fun x => decide (x ≠ keyOf h)
      else tableKeys (makeRoom t) := by
  rw [tableKeys_removeBuffer, tableKeys_obtain]
  split
  · rfl
  · rename_i hk
    have hroom : ∀ x ∈ tableKeys (makeRoom t), x ≠ keyOf h := fun x hx e =>
      hk (e ▸ ((makeRoom_sublist t).map _).subset hx)
    rw [List.filter_append, List.filter_eq_self.mpr fun x hx => decide_eq_true (hroom x hx)]
    simp

/-! ### ADD_FRAGMENT on the keys -/

theorem slotAt_newBuffer (h : Header) (j : Nat) : slotAt (newBuffer h) j = none := by
  simp only [slotAt, newBuffer, List.getElem?_replicate]
  split <;> rfl

theorem storeSlice_newBuffer (h : Header) (j : Nat) (x : Bytes) :
    storeSlice (newBuffer h) j x =
      { newBuffer h with slots := (newBuffer h).slots.set j (some x), receivedCount := 1 } := by
  rcases storeSlice_cases (newBuffer h) j x with ⟨-, e⟩ | ⟨y, hy, -⟩
  · exact e
  · rw [slotAt_newBuffer] at hy
    cases hy

/-- A new key's single fragment is its whole Message: concatenation has one filled slot to read (V-FE-4). -/
theorem assemble_single {h : Header} {x : Bytes} (h1 : h.totalFragments.toNat = 1) (hx : x.length ≤ 1024) :
    assemble (storeSlice (newBuffer h) 0 x) = .complete ⟨h, x⟩ := by
  have htotal : (newBuffer h).totalExpected.toNat = 1 := h1
  have hslot : slotAt (storeSlice (newBuffer h) 0 x) 0 = some x := by
    rw [storeSlice_newBuffer]
    rfl
  have hjoin : joinSlots (storeSlice (newBuffer h) 0 x) 1 0 [] = some x :=
    (joinSlots_eq_some_iff _ 1 0 [] x (by simp)).mpr ⟨[x], by simp [hslot], by simp, hx⟩
  rw [assemble, storeSlice_totalExpected, htotal, hjoin, storeSlice_header]
  rfl

/-- A buffer created by the very fragment that completes it expects that fragment alone. -/
theorem single_of_new_completes {t : List FragmentBuffer} {h : Header} {x : Bytes} (hk : keyOf h ∉ tableKeys t)
    (hb : badIndex h = false)
    (hc : (storeSlice (obtain t h).2 h.fragmentIndex.toNat x).receivedCount = (obtain t h).2.totalExpected.toNat) :
    (obtain t h).2 = newBuffer h ∧ h.totalFragments.toNat = 1 ∧ h.fragmentIndex.toNat = 0 := by
  have hnew : (obtain t h).2 = newBuffer h := by
    rw [obtain, (find_eq_none_iff_not_mem_keys t _).mpr hk]
  rw [hnew, storeSlice_newBuffer] at hc
  have htotal : h.totalFragments.toNat = 1 := hc.symm
  have hindex := (badIndex_eq_false_iff h).mp hb
  exact ⟨hnew, htotal, by omega⟩

/-- ADD_FRAGMENT's three results, each with what becomes of the table's keys (R128, R129, R132). -/
theorem addFragment_keys (ro : FragRejectOrder) (t : List FragmentBuffer) (h : Header) {x : Bytes}
    (hx : x.length ≤ 1024) :
    ((addFragment ro t h x).2 = .incomplete ∧
      tableKeys (addFragment ro t h x).1 =
        if keyOf h ∈ tableKeys t then tableKeys t else tableKeys (makeRoom t) ++ [keyOf h]) ∨
    ((addFragment ro t h x).2 = .error ∧
      (tableKeys (addFragment ro t h x).1 = tableKeys t ∨
        (keyOf h ∉ tableKeys t ∧
          tableKeys (addFragment ro t h x).1 = tableKeys (makeRoom t) ++ [keyOf h]) ∨
        (keyOf h ∈ tableKeys t ∧
          tableKeys (addFragment ro t h x).1 = (tableKeys t).filter fun y => decide (y ≠ keyOf h)))) ∨
    ((∃ m, (addFragment ro t h x).2 = .complete m) ∧ (keyOf h ∉ tableKeys t → h.totalFragments.toNat = 1) ∧
      tableKeys (addFragment ro t h x).1 =
        if keyOf h ∈ tableKeys t then (tableKeys t).filter fun y => decide (y ≠ keyOf h)
        else tableKeys (makeRoom t)) := by
  rcases addFragment_cases ro t h x with ⟨-, e⟩ | ⟨hb, hc, e⟩ | ⟨-, -, e⟩ <;> rw [e]
  case inl =>
    refine .inr (.inl ⟨rfl, ?_⟩)
    cases ro with
    | checkFirst => exact .inl rfl
    | allocateFirst =>
      have hkeys := tableKeys_obtain t h
      split at hkeys
      · exact .inl hkeys
      · exact .inr (.inl ⟨‹_›, hkeys⟩)
  case inr.inl =>
    have hkeys := tableKeys_removeBuffer_obtain t h
    have hsingle := fun hk => single_of_new_completes (t := t) hk hb hc
    cases ha : assemble (storeSlice (obtain t h).2 h.fragmentIndex.toNat x) with
    | complete m => exact .inr (.inr ⟨⟨m, rfl⟩, fun hk => (hsingle hk).2.1, hkeys⟩)
    | incomplete => exact absurd ha (assemble_ne_incomplete _)
    | error =>
      have hk : keyOf h ∈ tableKeys t := by
        by_contra hk
        obtain ⟨hnew, htotal, hindex⟩ := hsingle hk
        rw [hnew, hindex, assemble_single htotal hx] at ha
        cases ha
      rw [if_pos hk] at hkeys
      exact .inr (.inl ⟨rfl, .inr (.inr ⟨hk, hkeys⟩)⟩)
  case inr.inr =>
    exact .inl ⟨rfl, (putBuffer_keys _ _).trans (tableKeys_obtain t h)⟩

/-! ### PROCESS on the keys -/

/-- PROCESS does to the table's keys what ADD_FRAGMENT does, but for the single fragment, which it delivers without
the Fragment Engine (R153). -/
theorem exec_process_keys {s t : State} {f : Bytes} {h : Header} (hd : deserialize f = some h)
    (e : exec (.process f) s = .next t) :
    tableKeys t.ft = tableKeys s.ft ∨
    (keyOf h ∉ tableKeys s.ft ∧ tableKeys t.ft = tableKeys (makeRoom s.ft) ++ [keyOf h] ∧
      (t.response = some .none ∨ t.response = some .errFragmentation)) ∨
    (keyOf h ∈ tableKeys s.ft ∧ tableKeys t.ft = (tableKeys s.ft).filter (fun y => decide (y ≠ keyOf h)) ∧
      (t.response = some .errFragmentation ∨ ∃ m, t.response = some (.okMessage m))) := by
  obtain ⟨hf, rfl⟩ := exec_process_eq_next_iff.mp e
  rcases process_cases Config.zeroTotalPolicy Config.fragRejectOrder s f with
    ⟨-, ep⟩ | ⟨g, -, -, ep⟩ | ⟨g, -, -, -, ep⟩ | ⟨g, hg, -, -, ep⟩ <;> rw [ep]
  case inr.inr.inr =>
    obtain rfl : h = g := Option.some.inj (hd.symm.trans hg)
    have hp : (f.drop 16).length ≤ 1024 := by
      rw [List.length_drop]
      omega
    have hkeys := addFragment_keys Config.fragRejectOrder s.ft h hp
    rcases route_cases Config.zeroTotalPolicy Config.fragRejectOrder s h (f.drop 16) with
      ⟨htotal, ⟨t, m, ha, er⟩ | ⟨t, ha, er⟩ | ⟨t, ha, er⟩⟩ | ⟨-, er | ⟨-, er | er⟩⟩ <;> rw [er]
    case inl.inl =>
      simp only [ha, reduceCtorEq, false_and, false_or] at hkeys
      obtain ⟨-, hsingle, hkeys⟩ := hkeys
      have hk : keyOf h ∈ tableKeys s.ft := by
        by_contra hk
        have := hsingle hk
        omega
      rw [if_pos hk] at hkeys
      exact .inr (.inr ⟨hk, hkeys, .inr ⟨m, rfl⟩⟩)
    case inl.inr.inl =>
      simp only [ha, reduceCtorEq, false_and, exists_false, or_false, true_and] at hkeys
      split at hkeys
      · exact .inl hkeys
      · exact .inr (.inl ⟨‹_›, hkeys, .inl rfl⟩)
    case inl.inr.inr =>
      simp only [ha, reduceCtorEq, false_and, exists_false, or_false, false_or, true_and] at hkeys
      rcases hkeys with hkeys | ⟨hk, hkeys⟩ | ⟨hk, hkeys⟩
      · exact .inl hkeys
      · exact .inr (.inl ⟨hk, hkeys, .inr rfl⟩)
      · exact .inr (.inr ⟨hk, hkeys, .inl rfl⟩)
    all_goals exact .inl rfl
  all_goals exact .inl rfl

/-- A frame of a FRAME row parses, to a header of its row's type and its body's fields (R92). -/
theorem deserialize_frameBytes (ty : MsgType) (b : FrameBody) :
    deserialize (frameBytes ty b) = some (headerWith (bodyHeader ty b) ty) := by
  simp [deserialize, frameBytes, bodyHeader, typedOf]

/-- Settles O55: the keys after ADD_FRAGMENT, and after PROCESS, which the FRAME rows are. -/
theorem tableKeepsCreationOrder : Obligations.TableKeepsCreationOrder := by
  intro s t
  dsimp only
  rw [← tableKeys_makeRoom]
  refine ⟨?_, ?_, ?_⟩
  · intro h p e
    obtain ⟨hp, rfl⟩ := exec_addFragment_eq_next_iff.mp e
    rcases addFragment_keys Config.fragRejectOrder s.ft h (x := p) (by omega) with
      ⟨hr, hkeys⟩ | ⟨hr, hkeys⟩ | ⟨⟨m, hr⟩, -, hkeys⟩
    · exact .inl ⟨by simp [hr, addResponse], hkeys⟩
    · exact .inr (.inl ⟨by simp [hr, addResponse], hkeys⟩)
    · exact .inr (.inr ⟨⟨m, by simp [hr, addResponse]⟩, hkeys⟩)
  · rintro i k (⟨f, h, rfl, hd, rfl⟩ | ⟨b, hi, rfl⟩) e
    · exact exec_process_keys hd e
    · obtain ⟨ty, rfl⟩ : ∃ ty, i = frameInstr ty b := by
        rcases hi with rfl | rfl | rfl | rfl
        exacts [⟨.text, rfl⟩, ⟨.ack, rfl⟩, ⟨.announce, rfl⟩, ⟨.relay, rfl⟩]
      rw [exec_frameInstr] at e
      exact exec_process_keys (deserialize_frameBytes ty b) e
  · intro f hd e
    obtain ⟨-, rfl⟩ := exec_process_eq_next_iff.mp e
    rcases process_cases Config.zeroTotalPolicy Config.fragRejectOrder s f with
      ⟨-, er⟩ | ⟨h, hs, -⟩ | ⟨h, hs, -⟩ | ⟨h, hs, -⟩
    · rw [er]
      rfl
    all_goals
      rw [hd] at hs
      cases hs

end Sys2Proof.Machine
end

section
/-! PROOFS. The effect of one operation (`20_memory.md`): what the step runs, what the pure operations read, and what
each of the others leaves unchanged. -/

namespace Sys2Proof.Machine

/-! ### The step -/

theorem step_of_decode_eq_ok {s : State} {inp : Input} {rest : List Input} {i : Instr} (hp : s.pending = inp :: rest)
    (hd : decode inp = .ok i) : step s = exec i (s.withPending rest) := by
  unfold step
  rw [takeInput_cons hp]
  simp only [hd]

/-- Settles O4. -/
theorem stepRunsTheDecodedInstruction : Obligations.StepRunsTheDecodedInstruction :=
  fun _ _ _ _ => step_of_decode_eq_ok

/-! ### The pure operations: one answer to an instruction, whatever the state -/

theorem exec_serialize (h : Header) (s : State) :
    exec (.serialize h) s = presented (.serialize h) (respond s (.okData (serialize h))) := rfl

theorem exec_deserialize (f : Bytes) (s : State) :
    exec (.deserialize f) s =
      presented (.deserialize f) (respond s ((deserialize f).elim .errInvalidMessage .okHeader)) := by
  change presented _ _ = _
  cases deserialize f <;> rfl

theorem exec_checksum (h : Header) (p : Bytes) (s : State) :
    exec (.checksum h p) s = presented (.checksum h p) (respond s (.okVal (headerChecksum h p))) := rfl

theorem exec_verify (f : Bytes) (s : State) :
    exec (.verify f) s = presented (.verify f) (respond s (.okVal (boolVal (verify f)))) := rfl

theorem exec_fragCount (n : Nat) (s : State) :
    exec (.fragCount n) s = presented (.fragCount n)
      (respond s ((fragCount n).elim .errMessageTooLarge fun c => .okVal (BitVec.ofNat 16 c))) := by
  change presented _ _ = _
  cases fragCount n <;> rfl

theorem exec_getFragment (h : Header) (p : Bytes) (j : Byte) (s : State) :
    exec (.getFragment h p j) s = presented (.getFragment h p j) (respond s (getFragment h p j)) := rfl

theorem exec_prepareForRelay (h : Header) (s : State) :
    exec (.prepareForRelay h) s =
      presented (.prepareForRelay h) (respond s (.okHeader (prepareForRelay h))) := rfl

theorem exec_isForUs (h : Header) (s : State) :
    exec (.isForUs h) s = presented (.isForUs h) (respond s (.okVal (boolVal (isForUs h)))) := rfl

/-- What has the shape of the equations above has one answer for every state and writes nothing else (R58). -/
theorem exec_eq_next_of_presented_respond {i : Instr} {r : Response} (hw : i.WellFormed)
    (he : ∀ s, exec i s = presented i (respond s r)) (s : State) : exec i s = .next { s with response := some r } := by
  rw [he, presented_of_wellFormed hw]
  rfl

/-- Settles O50: the equation of each pure operation names its answer, in which the state does not occur. -/
theorem pureOperationsReadAndWriteNothing : Obligations.PureOperationsReadAndWriteNothing := by
  rintro i (⟨h, rfl⟩ | ⟨f, rfl⟩ | ⟨h, p, rfl⟩ | ⟨f, rfl⟩ | ⟨n, rfl⟩ | ⟨h, p, j, rfl⟩ | ⟨h, rfl⟩ | ⟨h, rfl⟩) hw
  · exact ⟨_, exec_eq_next_of_presented_respond hw (exec_serialize h)⟩
  · exact ⟨_, exec_eq_next_of_presented_respond hw (exec_deserialize f)⟩
  · exact ⟨_, exec_eq_next_of_presented_respond hw (exec_checksum h p)⟩
  · exact ⟨_, exec_eq_next_of_presented_respond hw (exec_verify f)⟩
  · exact ⟨_, exec_eq_next_of_presented_respond hw (exec_fragCount n)⟩
  · exact ⟨_, exec_eq_next_of_presented_respond hw (exec_getFragment h p j)⟩
  · exact ⟨_, exec_eq_next_of_presented_respond hw (exec_prepareForRelay h)⟩
  · exact ⟨_, exec_eq_next_of_presented_respond hw (exec_isForUs h)⟩

/-! ### What the writers leave unchanged -/

/-- Routing writes the Fragment Table and the receive window only (R140). -/
theorem route_frame (zp : ZeroTotalPolicy) (ro : FragRejectOrder) (s : State) (h : Header) (p : Bytes) :
    (route zp ro s h p).1 = (s.withFt (route zp ro s h p).1.ft).withRxw (route zp ro s h p).1.rxw := by
  rcases route_cases zp ro s h p with
    ⟨-, ⟨t, m, -, e⟩ | ⟨t, -, e⟩ | ⟨t, -, e⟩⟩ | ⟨-, e | ⟨-, e | e⟩⟩ <;>
  · rw [e]
    rfl

theorem process_frame (zp : ZeroTotalPolicy) (ro : FragRejectOrder) (s : State) (f : Bytes) :
    (process zp ro s f).1 = (s.withFt (process zp ro s f).1.ft).withRxw (process zp ro s f).1.rxw := by
  rcases process_cases zp ro s f with ⟨-, e⟩ | ⟨h, -, -, e⟩ | ⟨h, -, -, -, e⟩ | ⟨h, -, -, -, e⟩ <;> rw [e]
  case inr.inr.inr => exact route_frame zp ro s h _
  all_goals rfl

theorem exec_process_frame {f : Bytes} {s t : State} (e : exec (.process f) s = .next t) :
    t = { s with ft := t.ft, rxw := t.rxw, response := t.response } := by
  obtain ⟨-, rfl⟩ := exec_process_eq_next_iff.mp e
  exact congrArg (State.withResponse · _) (process_frame Config.zeroTotalPolicy Config.fragRejectOrder s f)

/-- A FRAME row leaves what PROCESS leaves (log entry 2). -/
theorem exec_frameInstr_frame {ty : MsgType} {b : FrameBody} {s t : State} (e : exec (frameInstr ty b) s = .next t) :
    t = { s with ft := t.ft, rxw := t.rxw, response := t.response } :=
  exec_process_frame ((exec_frameInstr ty b s).symm.trans e)

theorem exec_addFragment_frame {h : Header} {p : Bytes} {s t : State} (e : exec (.addFragment h p) s = .next t) :
    t = { s with ft := t.ft, response := t.response } := by
  obtain ⟨-, rfl⟩ := exec_addFragment_eq_next_iff.mp e
  rfl

theorem exec_shouldRelay (h : Header) (s : State) :
    exec (.shouldRelay h) s = .next ((shouldRelay s h).1.withResponse (shouldRelay s h).2) := rfl

/-- The relay decision writes the relay window only (R160). -/
theorem shouldRelay_frame (s : State) (h : Header) : (shouldRelay s h).1 = s.withRlw (shouldRelay s h).1.rlw := by
  rcases shouldRelay_cases s h with ⟨-, e⟩ | ⟨-, e⟩ <;>
  · rw [e]
    rfl

theorem exec_shouldRelay_frame {h : Header} {s t : State} (e : exec (.shouldRelay h) s = .next t) :
    t = { s with rlw := t.rlw, response := t.response } := by
  rw [exec_shouldRelay, Host.Outcome.next.injEq] at e
  subst e
  exact congrArg (State.withResponse · _) (shouldRelay_frame s h)

/-- Settles O51: what each writer leaves unchanged; the FRAME rows by way of PROCESS. -/
theorem writersLeaveTheRestOfTheState : Obligations.WritersLeaveTheRestOfTheState := by
  intro s t
  refine ⟨fun h p => exec_addFragment_frame, fun f => exec_process_frame, ?_, fun h => exec_shouldRelay_frame⟩
  rintro b (e | e | e | e)
  · exact exec_frameInstr_frame (ty := .text) e
  · exact exec_frameInstr_frame (ty := .ack) e
  · exact exec_frameInstr_frame (ty := .announce) e
  · exact exec_frameInstr_frame (ty := .relay) e

/-! ### The system operations -/

theorem exec_reset (o : DeviceId) (e : Bool) (s : State) :
    exec (.reset o e) s = .next ((resetBlock s o e).withResponse .ok) := rfl

theorem exec_cfgWrite (o : DeviceId) (e : Bool) (s : State) :
    exec (.cfgWrite o e) s = .next ((s.withConfig o e).withResponse .ok) := rfl

/-- RESET of a block that was just reset to the same registers writes what stands there (R169). -/
theorem resetBlock_resetBlock (s : State) (o : DeviceId) (e : Bool) :
    (resetBlock ((resetBlock s o e).withResponse .ok) o e).withResponse .ok =
      (resetBlock s o e).withResponse .ok := rfl

theorem withConfig_withConfig (s : State) (o : DeviceId) (e : Bool) :
    (((s.withConfig o e).withResponse .ok).withConfig o e).withResponse .ok =
      (s.withConfig o e).withResponse .ok := rfl

/-- Settles O52: the second run writes the values the first left. -/
theorem systemOperationsAreIdempotent : Obligations.SystemOperationsAreIdempotent := by
  intro o e s t
  constructor <;> intro h
  · rw [exec_reset, Host.Outcome.next.injEq] at h
    subst h
    rw [exec_reset, resetBlock_resetBlock]
  · rw [exec_cfgWrite, Host.Outcome.next.injEq] at h
    subst h
    rw [exec_cfgWrite, withConfig_withConfig]

end Sys2Proof.Machine
end

section
/-! PROOFS. The encoding (`30_encoding.md`): what the decoder reads from a command record and from a delivered frame,
which inputs and instructions are refused, and the response's status and length. -/

namespace Sys2Proof.Machine

/-! ### The decoder -/

/-- The decoder accepts what it reads and finds in range, and nothing else. -/
theorem decode_eq_ok_iff {inp : Input} {i : Instr} : decode inp = .ok i ↔ readInput inp = .ok i ∧ i.WellFormed := by
  unfold decode
  cases readInput inp with
  | error e => simp
  | ok j =>
    by_cases hw : j.WellFormed
    · simp only [if_pos hw, Except.ok.injEq]
      exact ⟨fun e => ⟨e, e ▸ hw⟩, And.left⟩
    · simp only [if_neg hw, Except.ok.injEq, reduceCtorEq, false_iff]
      rintro ⟨rfl, hj⟩
      exact hw hj

theorem decode_eq_operandRange {inp : Input} {i : Instr} (hi : readInput inp = .ok i) (hw : ¬ i.WellFormed) :
    decode inp = .error .operandRange := by
  simp [decode, hi, hw]

theorem decode_eq_error {inp : Input} {e : DecodeError} (hi : readInput inp = .error e) : decode inp = .error e := by
  simp [decode, hi]

theorem step_of_decode_eq_error {s : State} {inp : Input} {rest : List Input} {e : DecodeError}
    (hp : s.pending = inp :: rest) (hd : decode inp = .error e) : step s = refuse e := by
  unfold step
  rw [takeInput_cons hp]
  simp only [hd]

/-! ### The fields of a command record -/

theorem withHeader_of_typedOf {r : CommandRecord} {h : Header} (hr : typedOf r.hdr = some h)
    (k : Header → Except DecodeError Instr) : withHeader r k = k h := by
  simp [withHeader, hr]

theorem typedOf_eq_none_iff (r : RawHeader) : typedOf r = none ↔ r.msgType ∉ ([1, 2, 3, 4] : List Byte) := by
  simp [typedOf, typeOfCode_eq_none_iff]

theorem exists_typedOf {r : RawHeader} (ht : r.msgType ∈ ([1, 2, 3, 4] : List Byte)) : ∃ h, typedOf r = some h :=
  Option.ne_none_iff_exists'.mp fun e => (typedOf_eq_none_iff r).mp e ht

theorem withHeader_of_unknown_type {r : CommandRecord} (ht : r.hdr.msgType ∉ ([1, 2, 3, 4] : List Byte))
    (k : Header → Except DecodeError Instr) : withHeader r k = .error (.messageType r.hdr.msgType) := by
  simp [withHeader, (typedOf_eq_none_iff r.hdr).mpr ht]

theorem withData_of_length {r : CommandRecord} (hl : r.data.length = r.len) (k : Bytes → Except DecodeError Instr) :
    withData r k = k r.data := by
  simp [withData, hl]

theorem withData_of_length_ne {r : CommandRecord} (hl : r.data.length ≠ r.len)
    (k : Bytes → Except DecodeError Instr) : withData r k = .error (.dataLength r.len) := by
  simp [withData, hl]

/-! ### The command codes -/

/-- The table of R79 assigns thirteen codes, and `cmd_op` values outside it none (R84). -/
theorem opOfCode_eq_none_iff (c : Byte) : opOfCode c = none ↔
    c ∉ ([0x00, 0x01, 0x10, 0x11, 0x12, 0x13, 0x20, 0x21, 0x22, 0x30, 0x40, 0x41, 0x42] : List Byte) := by
  simp [opOfCode, commandRows, eq_comm (a := c)]

theorem readCommand_of_unassigned {r : CommandRecord} (hop : opOfCode r.op = none) :
    readCommand r = .error (.unassignedCommand r.op) := by
  rw [readCommand, hop]

/-- DESERIALIZE, VERIFY and PROCESS read a frame, of at most the MTU. -/
theorem readCommand_of_frame_code {r : CommandRecord} (hop : r.op ∈ ([0x11, 0x13, 0x30] : List Byte)) :
    ∃ k : Bytes → Instr, (∀ f, (k f).WellFormed ↔ f.length ≤ 244) ∧
      readCommand r = withData r fun f => .ok (k f) := by
  simp only [List.mem_cons, List.not_mem_nil, or_false] at hop
  rcases hop with h | h | h <;> rw [readCommand, h]
  · exact ⟨.deserialize, by simp [Instr.WellFormed, Instr.wellFormed], rfl⟩
  · exact ⟨.verify, by simp [Instr.WellFormed, Instr.wellFormed], rfl⟩
  · exact ⟨.process, by simp [Instr.WellFormed, Instr.wellFormed], rfl⟩

/-- CHECKSUM and GET_FRAGMENT read a header and a Message payload. -/
theorem readCommand_of_message_code {r : CommandRecord} (hop : r.op ∈ ([0x12, 0x21] : List Byte)) :
    ∃ k : Header → Bytes → Instr, (∀ h p, (k h p).WellFormed ↔ p.length ≤ 1024) ∧
      readCommand r = withHeader r fun h => withData r fun p => .ok (k h p) := by
  simp only [List.mem_cons, List.not_mem_nil, or_false] at hop
  rcases hop with h | h <;> rw [readCommand, h]
  · exact ⟨.checksum, by simp [Instr.WellFormed, Instr.wellFormed], rfl⟩
  · exact ⟨fun h p => .getFragment h p r.idx, by simp [Instr.WellFormed, Instr.wellFormed], rfl⟩

theorem readCommand_of_addFragment_code {r : CommandRecord} (hop : r.op = 0x22) :
    readCommand r = withHeader r fun h => withData r fun p => .ok (.addFragment h p) := by
  rw [readCommand, hop]
  rfl

theorem readCommand_of_fragCount_code {r : CommandRecord} (hop : r.op = 0x20) :
    readCommand r = .ok (.fragCount r.len) := by
  rw [readCommand, hop]
  rfl

/-- The seven operations that use `cmd_hdr` (R79). -/
theorem readCommand_of_header_code {r : CommandRecord}
    (hop : r.op ∈ ([0x10, 0x12, 0x21, 0x22, 0x40, 0x41, 0x42] : List Byte)) :
    ∃ k, readCommand r = withHeader r k := by
  simp only [List.mem_cons, List.not_mem_nil, or_false] at hop
  rcases hop with h | h | h | h | h | h | h <;> rw [readCommand, h] <;> exact ⟨_, rfl⟩

/-! ### Delivered frames -/

theorem encode_frameInstr (ty : MsgType) (b : FrameBody) : encode (frameInstr ty b) = .frame (frameBytes ty b) := by
  cases ty <;> rfl

theorem frameInstr_wellFormed_iff (ty : MsgType) (b : FrameBody) :
    (frameInstr ty b).WellFormed ↔ (frameBytes ty b).length ≤ 244 := by
  cases ty <;> simp [frameInstr, Instr.WellFormed, Instr.wellFormed]

theorem readFrame_frameBytes (ty : MsgType) (b : FrameBody) : readFrame (frameBytes ty b) = frameInstr ty b := by
  simp [readFrame, frameBytes, bodyHeader, bodyOf]

/-- A header of version 1 and a known type is its row's fixed bytes and the body (R92). -/
theorem bodyHeader_bodyOf {r : RawHeader} {ty : MsgType} (hv : r.version = 1) (ht : typeOfCode r.msgType = some ty)
    (p : Bytes) : bodyHeader ty (bodyOf r p) = r := by
  have htype := typeOfCode_eq_some ht
  cases r
  simp_all [bodyHeader, bodyOf]

/-- Everything a delivered frame can be: a frame of a FRAME row, or one the parser rejects (R80, R81, R92). -/
theorem readFrame_cases (f : Bytes) :
    (∃ ty b, f = frameBytes ty b ∧ readFrame f = frameInstr ty b) ∨
    (deserialize f = none ∧ readFrame f = .process f) := by
  cases hs : splitFrame f with
  | none => exact .inr (by simp [deserialize, readFrame, hs])
  | some x =>
    obtain ⟨r, p⟩ := x
    by_cases hv : r.version = Config.par.protocolVersion
    · cases ht : typeOfCode r.msgType with
      | none => exact .inr (by simp [deserialize, readFrame, hs, typedOf, ht])
      | some ty =>
        have hf : f = frameBytes ty (bodyOf r p) := by
          rw [frameBytes, bodyHeader_bodyOf hv ht p]
          exact splitFrame_eq_some hs
        exact .inl ⟨ty, bodyOf r p, hf, by simp [readFrame, hs, hv, ht]⟩
    · exact .inr (by simp only [deserialize, readFrame, hs, if_neg hv, and_self])

/-- Whatever a delivered frame is read as, its bound is the MTU (R221). -/
theorem readFrame_wellFormed_iff (f : Bytes) : (readFrame f).WellFormed ↔ f.length ≤ 244 := by
  rcases readFrame_cases f with ⟨ty, b, rfl, e⟩ | ⟨-, e⟩ <;> rw [e]
  · exact frameInstr_wellFormed_iff ty b
  · simp [Instr.WellFormed, Instr.wellFormed]

/-! ### Decoding and encoding -/

/-- A header and the data that follow it are read back from the record that carries them. -/
theorem withHeader_withData_encoded {r : CommandRecord} {h : Header} (hh : r.hdr = rawOf h)
    (hl : r.data.length = r.len) (k : Header → Bytes → Except DecodeError Instr) :
    (withHeader r fun h => withData r (k h)) = k h r.data := by
  rw [withHeader_of_typedOf (hh ▸ typedOf_rawOf h), withData_of_length hl]

/-- The encoding of an instruction reads as that instruction, in range or not. -/
theorem readInput_encode (i : Instr) : readInput (encode i) = .ok i := by
  cases i with
  | reset o e => rfl
  | cfgWrite o e => rfl
  | fragCount n => rfl
  | serialize h => exact withHeader_of_typedOf (typedOf_rawOf h) _
  | shouldRelay h => exact withHeader_of_typedOf (typedOf_rawOf h) _
  | prepareForRelay h => exact withHeader_of_typedOf (typedOf_rawOf h) _
  | isForUs h => exact withHeader_of_typedOf (typedOf_rawOf h) _
  | deserialize f => exact withData_of_length (by rfl) fun f => .ok (.deserialize f)
  | verify f => exact withData_of_length (by rfl) fun f => .ok (.verify f)
  | process f => exact withData_of_length (by rfl) fun f => .ok (.process f)
  | checksum h p => exact withHeader_withData_encoded rfl rfl _
  | getFragment h p j => exact withHeader_withData_encoded rfl rfl _
  | addFragment h p => exact withHeader_withData_encoded rfl rfl _
  | frameText b => exact congrArg Except.ok (readFrame_frameBytes .text b)
  | frameAck b => exact congrArg Except.ok (readFrame_frameBytes .ack b)
  | frameAnnounce b => exact congrArg Except.ok (readFrame_frameBytes .announce b)
  | frameRelay b => exact congrArg Except.ok (readFrame_frameBytes .relay b)

/-- Settles O1: reading undoes encoding for every instruction, and the range check passes what is well formed. -/
theorem decodeOfEncodeIsIdentity : Obligations.DecodeOfEncodeIsIdentity :=
  fun i hw => decode_eq_ok_iff.mpr ⟨readInput_encode i, hw⟩

/-- Settles O2: a frame of a FRAME row is its own encoding; every other is one the parser rejects. -/
theorem frameDecodingDropsNoBit : Obligations.FrameDecodingDropsNoBit := by
  intro f i hd
  obtain ⟨hread, -⟩ := decode_eq_ok_iff.mp hd
  obtain rfl : readFrame f = i := Except.ok.inj hread
  rcases readFrame_cases f with ⟨ty, b, rfl, e⟩ | ⟨hn, e⟩ <;> rw [e]
  · refine .inl ⟨encode_frameInstr ty b, ?_⟩
    rw [deserialize_frameBytes]
    exact Option.some_ne_none _
  · exact .inr ⟨rfl, hn⟩

theorem decodeTableWord_of_encode {nbits w : Nat} {i : Instr} (hi : tableInput nbits w = encode i)
    (hw : i.WellFormed) : decodeTableWord nbits w = some i := by
  rw [decodeTableWord, hi, decodeOfEncodeIsIdentity i hw]
  rfl

theorem decodeTableWord_of_unassigned {w : Nat} (hw : opOfCode (BitVec.ofNat 8 w) = none) :
    decodeTableWord 8 w = none := by
  have hd : decode (tableInput 8 w) = .error (.unassignedCommand (BitVec.ofNat 8 w)) :=
    decode_eq_error (readCommand_of_unassigned hw)
  rw [decodeTableWord, hd]
  rfl

/-- Settles O3: each sample is the encoding of the instruction it decodes to; 0x50 is in no row. -/
theorem sampleWordsDecode : Obligations.SampleWordsDecode :=
  ⟨decodeTableWord_of_encode rfl rfl, decodeTableWord_of_encode rfl rfl, decodeTableWord_of_encode rfl rfl,
    decodeTableWord_of_encode rfl rfl, decodeTableWord_of_encode rfl rfl, decodeTableWord_of_encode rfl rfl,
    decodeTableWord_of_unassigned rfl, decodeOfEncodeIsIdentity
      (.frameAck ⟨⟨0x10, 0x20, 0x30, 0x40, 0x50, 0x60⟩, 0x1234, 0, 1, 0, 1, 0x7CE6, []⟩) rfl⟩

/-! ### Inputs that are refused -/

theorem step_refuses_read_error {s : State} {r : CommandRecord} {rest : List Input} {e : DecodeError}
    (hp : s.pending = .command r :: rest) (hr : readCommand r = .error e) : step s = refuse e :=
  step_of_decode_eq_error hp (decode_eq_error hr)

theorem step_refuses_ill_formed {s : State} {inp : Input} {rest : List Input} {i : Instr}
    (hp : s.pending = inp :: rest) (hr : readInput inp = .ok i) (hw : ¬ i.WellFormed) :
    step s = .refused .operandRange :=
  step_of_decode_eq_error hp (decode_eq_operandRange hr hw)

/-- Settles O6: a code outside the table selects nothing, whatever stands in the other fields. -/
theorem unassignedCommandsAreRefused : Obligations.UnassignedCommandsAreRefused := by
  intro s r rest hp hop
  exact step_refuses_read_error hp (readCommand_of_unassigned ((opOfCode_eq_none_iff r.op).mpr hop))

/-- Every operation that uses `cmd_data` refuses a record whose data is not `cmd_len` bytes (R76, log entry 9). -/
theorem readCommand_of_length_ne {r : CommandRecord}
    (hop : r.op ∈ ([0x11, 0x13, 0x30] : List Byte) ∨
      r.op ∈ ([0x12, 0x21, 0x22] : List Byte) ∧ r.hdr.msgType ∈ ([1, 2, 3, 4] : List Byte))
    (hl : r.data.length ≠ r.len) : readCommand r = .error (.dataLength r.len) := by
  rcases hop with hop | ⟨hop, ht⟩
  · obtain ⟨k, -, hk⟩ := readCommand_of_frame_code hop
    rw [hk, withData_of_length_ne hl]
  · obtain ⟨h, hh⟩ := exists_typedOf ht
    obtain ⟨k, hk⟩ : ∃ k : Header → Bytes → Except DecodeError Instr,
        readCommand r = withHeader r fun h => withData r (k h) := by
      by_cases h22 : r.op = 0x22
      · exact ⟨_, readCommand_of_addFragment_code h22⟩
      · have hcode : r.op ∈ ([0x12, 0x21] : List Byte) := by
          simp only [List.mem_cons, List.not_mem_nil, or_false, h22] at hop ⊢
          exact hop
        obtain ⟨k, -, hk⟩ := readCommand_of_message_code hcode
        exact ⟨_, hk⟩
    rw [hk, withHeader_of_typedOf hh, withData_of_length_ne hl]

/-- Settles O7: one clause per check, each from what the record's code makes the decoder read. -/
theorem operandsOutOfRangeAreRefused : Obligations.OperandsOutOfRangeAreRefused := by
  intro s rest
  refine ⟨?headerType, ?frameLength, ?messageLength, ?fragmentLength, ?countedLength, ?deliveredLength, ?dataLength⟩
  case headerType =>
    intro r hp hop ht
    obtain ⟨k, hk⟩ := readCommand_of_header_code hop
    exact step_refuses_read_error hp (hk.trans (withHeader_of_unknown_type ht k))
  case frameLength =>
    intro r hp hop hl hlt
    obtain ⟨k, hw, hk⟩ := readCommand_of_frame_code hop
    exact step_refuses_ill_formed hp (hk.trans (withData_of_length hl _)) (by rw [hw]; omega)
  case messageLength =>
    intro r hp hop ht hl hlt
    obtain ⟨h, hh⟩ := exists_typedOf ht
    obtain ⟨k, hw, hk⟩ := readCommand_of_message_code hop
    rw [withHeader_of_typedOf hh, withData_of_length hl] at hk
    exact step_refuses_ill_formed hp hk (by rw [hw]; omega)
  case fragmentLength =>
    intro r hp hop ht hl hlt
    obtain ⟨h, hh⟩ := exists_typedOf ht
    have hk := readCommand_of_addFragment_code hop
    rw [withHeader_of_typedOf hh, withData_of_length hl] at hk
    exact step_refuses_ill_formed hp hk (by simp [Instr.WellFormed, Instr.wellFormed]; omega)
  case countedLength =>
    intro r hp hop hlt
    exact step_refuses_ill_formed hp (readCommand_of_fragCount_code hop)
      (by simp [Instr.WellFormed, Instr.wellFormed]; omega)
  case deliveredLength =>
    intro f hp hlt
    exact step_refuses_ill_formed (i := readFrame f) hp rfl (by rw [readFrame_wellFormed_iff]; omega)
  case dataLength =>
    intro r hp hop hl
    exact step_refuses_read_error hp (readCommand_of_length_ne hop hl)

/-! ### Instructions that are refused -/

/-- Every meaning is the guard on its own instruction before a response (R201). -/
theorem exec_eq_presented_respond (i : Instr) (s : State) : ∃ u q, exec i s = presented i (respond u q) := by
  cases i with
  | deserialize f => exact ⟨_, _, exec_deserialize f s⟩
  | fragCount n => exact ⟨_, _, exec_fragCount n s⟩
  | reset => exact ⟨_, _, rfl⟩
  | cfgWrite => exact ⟨_, _, rfl⟩
  | serialize => exact ⟨_, _, rfl⟩
  | checksum => exact ⟨_, _, rfl⟩
  | verify => exact ⟨_, _, rfl⟩
  | getFragment => exact ⟨_, _, rfl⟩
  | addFragment => exact ⟨_, _, rfl⟩
  | process => exact ⟨_, _, rfl⟩
  | shouldRelay => exact ⟨_, _, rfl⟩
  | prepareForRelay => exact ⟨_, _, rfl⟩
  | isForUs => exact ⟨_, _, rfl⟩
  | frameText => exact ⟨_, _, rfl⟩
  | frameAck => exact ⟨_, _, rfl⟩
  | frameAnnounce => exact ⟨_, _, rfl⟩
  | frameRelay => exact ⟨_, _, rfl⟩

theorem exec_of_wellFormed {i : Instr} (hw : i.WellFormed) (s : State) : ∃ t, exec i s = .next t := by
  obtain ⟨u, q, e⟩ := exec_eq_presented_respond i s
  exact ⟨_, e.trans (presented_of_wellFormed hw _)⟩

theorem exec_of_not_wellFormed {i : Instr} (hw : ¬ i.WellFormed) (s : State) : exec i s = .refused .operandRange := by
  obtain ⟨u, q, e⟩ := exec_eq_presented_respond i s
  exact e.trans (presented_of_not_wellFormed hw _)

/-- Settles O8: the guard refuses what is ill formed, and what passes it is answered. -/
theorem execRefusesExactlyTheIllFormed : Obligations.ExecRefusesExactlyTheIllFormed := by
  intro i s
  refine ⟨fun e hw => ?_, fun hw => exec_of_not_wellFormed hw s⟩
  obtain ⟨t, ht⟩ := exec_of_wellFormed hw s
  rw [ht] at e
  cases e

/-! ### The FRAME rows -/

/-- The four FRAME rows as the obligations list them are `frameInstr` at the four types. -/
theorem eq_frameInstr_of_mem_rows {b : FrameBody} {ti : MsgType × Instr}
    (hti : ti ∈ [(MsgType.text, Instr.frameText b), (.ack, .frameAck b), (.announce, .frameAnnounce b),
      (.relay, .frameRelay b)]) : ti.2 = frameInstr ti.1 b := by
  simp only [List.mem_cons, List.not_mem_nil, or_false] at hti
  rcases hti with rfl | rfl | rfl | rfl <;> rfl

/-- A FRAME row's bytes are those SERIALIZE gives for its header, and the payload (R101). -/
theorem frameBytes_eq_serialize_append (ty : MsgType) (b : FrameBody) :
    frameBytes ty b = serialize ⟨1, ty, b.senderId, b.sequence, b.fragmentIndex, b.totalFragments, b.ttl, b.flags,
      b.checksum⟩ ++ b.payload := rfl

/-- Settles O39: a payload of at most 228 bytes makes a frame within the MTU, which both commands run alike. -/
theorem frameRowsAreProcessedAsTheirBytes : Obligations.FrameRowsAreProcessedAsTheirBytes := by
  intro b s hl ti hti
  rw [eq_frameInstr_of_mem_rows hti, ← frameBytes_eq_serialize_append]
  have hw : (frameInstr ti.1 b).WellFormed := by
    rw [frameInstr_wellFormed_iff, frameBytes_length]
    omega
  obtain ⟨t, ht⟩ := exec_of_wellFormed hw s
  exact ⟨t, ht, (exec_frameInstr ti.1 b s).symm.trans ht⟩

/-! ### The response -/

/-- Settles O10. -/
theorem statusBitSevenMarksErrors : Obligations.StatusBitSevenMarksErrors := by
  refine ⟨rfl, fun _ => rfl, fun _ => rfl, fun _ => rfl, fun _ => rfl, rfl, rfl, rfl, rfl, rfl, rfl, fun r => ?_⟩
  cases r <;> simp [statusCode]

/-- An emitted frame is a header and one slice of the payload, so it keeps to the MTU (R124). -/
theorem responseBytes_getFragment_length_le (h : Header) (p : Bytes) (idx : Byte) :
    (responseBytes (getFragment h p idx)).length ≤ 244 := by
  unfold getFragment
  split
  · simp [responseBytes]
  · split
    · simp [responseBytes]
    · rw [sealFrame_serialize_append, fragmentSlice_eq]
      simp [responseBytes]
      omega

/-- A reassembled payload is within the bound, whatever the table held (R134). -/
theorem payload_length_of_addFragment {ro : FragRejectOrder} {t u : List FragmentBuffer} {h : Header} {x : Bytes}
    {m : Message} (e : addFragment ro t h x = (u, .complete m)) : m.payload.length ≤ 1024 := by
  rcases addFragment_cases ro t h x with ⟨-, ha⟩ | ⟨-, -, ha⟩ | ⟨-, -, ha⟩ <;> rw [ha, Prod.mk.injEq] at e
  · cases e.2
  · exact (assemble_complete_length e.2).2
  · cases e.2

theorem responseBytes_addFragment_length_le (ro : FragRejectOrder) (t : List FragmentBuffer) (h : Header)
    (x : Bytes) : (responseBytes (addResponse (addFragment ro t h x).2)).length ≤ 1024 := by
  rcases ha : addFragment ro t h x with ⟨u, m | _ | _⟩
  · exact payload_length_of_addFragment ha
  · exact Nat.zero_le _
  · exact Nat.zero_le _

theorem responseBytes_route_length_le (zp : ZeroTotalPolicy) (ro : FragRejectOrder) (s : State) (h : Header)
    {p : Bytes} (hp : p.length ≤ 1024) : (responseBytes (route zp ro s h p).2).length ≤ 1024 := by
  rcases route_cases zp ro s h p with
    ⟨-, ⟨t, m, ha, e⟩ | ⟨t, -, e⟩ | ⟨t, -, e⟩⟩ | ⟨-, e | ⟨-, e | e⟩⟩ <;> rw [e]
  case inl.inl => exact payload_length_of_addFragment ha
  case inr.inl => exact hp
  all_goals exact Nat.zero_le _

theorem responseBytes_process_length_le (zp : ZeroTotalPolicy) (ro : FragRejectOrder) (s : State) {f : Bytes}
    (hf : f.length ≤ 244) : (responseBytes (process zp ro s f).2).length ≤ 1024 := by
  rcases process_cases zp ro s f with ⟨-, e⟩ | ⟨h, -, -, e⟩ | ⟨h, -, -, -, e⟩ | ⟨h, -, -, -, e⟩ <;> rw [e]
  case inr.inr.inr => exact responseBytes_route_length_le zp ro s h (by rw [List.length_drop]; omega)
  all_goals exact Nat.zero_le _

theorem responseBytes_shouldRelay (s : State) (h : Header) : responseBytes (shouldRelay s h).2 = [] := by
  rcases shouldRelay_cases s h with ⟨-, e⟩ | ⟨-, e⟩ <;> rw [e] <;> rfl

/-- The answer of an instruction that was let through its guard is the one its meaning names. -/
theorem response_of_exec {i : Instr} {s t u : State} {q r : Response} (he : exec i s = presented i (respond u q))
    (e : exec i s = .next t) (hr : t.response = some r) : r = q := by
  obtain ⟨-, ha⟩ := presented_eq_next_iff.mp (he.symm.trans e)
  rw [respond_eq_next_iff.mp ha, State.withResponse_response] at hr
  exact (Option.some.inj hr).symm

theorem responseBytes_length_le_of_exec {i : Instr} {s t u : State} {q r : Response}
    (he : exec i s = presented i (respond u q)) (hq : (responseBytes q).length ≤ 1024)
    (e : exec i s = .next t) (hr : t.response = some r) : (responseBytes r).length ≤ 1024 :=
  response_of_exec he e hr ▸ hq

theorem responseBytes_exec_process_length_le {f : Bytes} {s t : State} {r : Response}
    (e : exec (.process f) s = .next t) (hr : t.response = some r) : (responseBytes r).length ≤ 1024 :=
  responseBytes_length_le_of_exec rfl
    (responseBytes_process_length_le _ _ s (exec_process_eq_next_iff.mp e).1) e hr

/-- Settles O56: data is carried by SERIALIZE, GET_FRAGMENT, ADD_FRAGMENT and PROCESS (so the FRAME rows) alone, each
within the bound. -/
theorem responsesCarryAtMost1024Bytes : Obligations.ResponsesCarryAtMost1024Bytes := by
  intro i s t r e hr
  cases i with
  | serialize h => exact responseBytes_length_le_of_exec (exec_serialize h s) (by simp [responseBytes]) e hr
  | getFragment h p j =>
    have hle := responseBytes_getFragment_length_le h p j
    exact responseBytes_length_le_of_exec (exec_getFragment h p j s) (by omega) e hr
  | addFragment h p =>
    exact responseBytes_length_le_of_exec rfl (responseBytes_addFragment_length_le _ s.ft h p) e hr
  | process f => exact responseBytes_exec_process_length_le e hr
  | frameText b => exact responseBytes_exec_process_length_le ((exec_frameInstr .text b s).symm.trans e) hr
  | frameAck b => exact responseBytes_exec_process_length_le ((exec_frameInstr .ack b s).symm.trans e) hr
  | frameAnnounce b => exact responseBytes_exec_process_length_le ((exec_frameInstr .announce b s).symm.trans e) hr
  | frameRelay b => exact responseBytes_exec_process_length_le ((exec_frameInstr .relay b s).symm.trans e) hr
  | shouldRelay h =>
    have hnone := responseBytes_shouldRelay s h
    exact responseBytes_length_le_of_exec rfl (by rw [hnone]; exact Nat.zero_le _) e hr
  | deserialize f =>
    refine responseBytes_length_le_of_exec (exec_deserialize f s) ?_ e hr
    cases deserialize f <;> exact Nat.zero_le _
  | fragCount n =>
    refine responseBytes_length_le_of_exec (exec_fragCount n s) ?_ e hr
    cases fragCount n <;> exact Nat.zero_le _
  | reset o b => exact responseBytes_length_le_of_exec (q := .ok) rfl (Nat.zero_le _) e hr
  | cfgWrite o b => exact responseBytes_length_le_of_exec (q := .ok) rfl (Nat.zero_le _) e hr
  | checksum h p => exact responseBytes_length_le_of_exec (exec_checksum h p s) (Nat.zero_le _) e hr
  | verify f => exact responseBytes_length_le_of_exec (exec_verify f s) (Nat.zero_le _) e hr
  | prepareForRelay h => exact responseBytes_length_le_of_exec (exec_prepareForRelay h s) (Nat.zero_le _) e hr
  | isForUs h => exact responseBytes_length_le_of_exec (exec_isForUs h s) (Nat.zero_le _) e hr

end Sys2Proof.Machine
end

section
/-! PROOFS. The frame codec (`40_frame_codec.md`): serializing and parsing, the CRC of strings that differ in a byte or
end in their own CRC, and the checksum test. -/

namespace Sys2Proof.Machine

/-! ### Serializing and parsing (R101 to R103) -/

theorem serialize_eq_wireLayout (h : Header) : serialize h =
    [h.version, typeCode h.msgType,
     h.senderId.b0, h.senderId.b1, h.senderId.b2, h.senderId.b3, h.senderId.b4, h.senderId.b5,
     BitVec.ofNat 8 (h.sequence.toNat / 256), BitVec.ofNat 8 (h.sequence.toNat % 256),
     h.fragmentIndex, h.totalFragments, h.ttl, h.flags,
     BitVec.ofNat 8 (h.checksum.toNat / 256), BitVec.ofNat 8 (h.checksum.toNat % 256)] := by
  simp only [serialize, headerBytes, rawOf, hiByte_eq, loByte_eq]

theorem typeCode_eq (ty : MsgType) :
    typeCode ty = if ty = .text then 1 else if ty = .ack then 2 else if ty = .announce then 3 else 4 := by
  cases ty <;> rfl

/-- Settles O11: the answer is the header bytes, whatever they hold. -/
theorem serializeAnswersTheWireLayout : Obligations.SerializeAnswersTheWireLayout := by
  intro h s
  rw [exec_eq_next_of_presented_respond rfl (exec_serialize h), serialize_eq_wireLayout, typeCode_eq]

/-- The parser reads the header bytes alone, the version before the type (R102). -/
theorem deserialize_headerBytes_append (r : RawHeader) (p : Bytes) :
    deserialize (headerBytes r ++ p) = if r.version = 1 then typedOf r else none := by
  simp [deserialize]

/-- The three causes of `InvalidMessage` (R102). -/
theorem deserialize_eq_none_iff (f : Bytes) : deserialize f = none ↔
    f.length < 16 ∨ f.getD 0 0 ≠ 1 ∨ f.getD 1 0 ∉ ([1, 2, 3, 4] : List Byte) := by
  cases hs : splitFrame f with
  | none => simp [deserialize, hs, (splitFrame_eq_none_iff f).mp hs]
  | some x =>
    obtain ⟨r, p⟩ := x
    obtain rfl := splitFrame_eq_some hs
    have hlen : ¬ (headerBytes r ++ p).length < 16 := by simp
    have hver : (headerBytes r ++ p).getD 0 0 = r.version := rfl
    have htype : (headerBytes r ++ p).getD 1 0 = r.msgType := rfl
    rw [deserialize_headerBytes_append, hver, htype, ite_eq_right_iff, typedOf_eq_none_iff, or_iff_right hlen,
      imp_iff_not_or]

/-- The header R102 reads from fixed places of the frame, once none of the three causes holds. -/
def headerAt (f : Bytes) : Header where
  version := f.getD 0 0
  msgType := if f.getD 1 0 = 1 then .text else if f.getD 1 0 = 2 then .ack
    else if f.getD 1 0 = 3 then .announce else .relay
  senderId := ⟨f.getD 2 0, f.getD 3 0, f.getD 4 0, f.getD 5 0, f.getD 6 0, f.getD 7 0⟩
  sequence := be16 (f.getD 8 0) (f.getD 9 0)
  fragmentIndex := f.getD 10 0
  totalFragments := f.getD 11 0
  ttl := f.getD 12 0
  flags := f.getD 13 0
  checksum := be16 (f.getD 14 0) (f.getD 15 0)

theorem headerAt_serialize_append (h : Header) (p : Bytes) : headerAt (serialize h ++ p) = h := by
  obtain ⟨v, ty, o, q, i, n, l, g, c⟩ := h
  cases ty <;> simp [headerAt, serialize, headerBytes, rawOf, typeCode]

theorem deserialize_eq_headerAt {f : Bytes} {h : Header} (e : deserialize f = some h) : h = headerAt f := by
  obtain ⟨-, hf⟩ := deserialize_eq_some e
  rw [hf, headerAt_serialize_append]

/-- Settles O12: without one of the causes there is a header, and the frame begins with its bytes. -/
theorem deserializeReadsEveryField : Obligations.DeserializeReadsEveryField := by
  intro f s hl
  have hw : (Instr.deserialize f).WellFormed := by simpa [Instr.WellFormed, Instr.wellFormed] using hl
  rw [exec_eq_next_of_presented_respond hw (exec_deserialize f)]
  congr 3
  cases hd : deserialize f with
  | none => exact (if_pos ((deserialize_eq_none_iff f).mp hd)).symm
  | some h =>
    have hcause := (deserialize_eq_none_iff f).not.mp (hd ▸ Option.some_ne_none h)
    rw [if_neg hcause, deserialize_eq_headerAt hd]
    rfl

/-- Settles O13: 16 bytes without a cause of failure are the bytes of a header, with nothing behind them. -/
theorem serializeAndDeserializeAreInverse : Obligations.SerializeAndDeserializeAreInverse := by
  constructor
  · intro h hv
    rw [← List.append_nil (serialize h)]
    exact deserialize_serialize_append hv []
  · intro b hl hv ht
    have hsome : deserialize b ≠ none := by
      rw [Ne, deserialize_eq_none_iff]
      rintro (hlt | hver | htype)
      · omega
      · exact hver hv
      · exact htype ht
    obtain ⟨h, hd⟩ := Option.ne_none_iff_exists'.mp hsome
    obtain ⟨-, hb⟩ := deserialize_eq_some hd
    rw [List.drop_of_length_le hl.le, List.append_nil] at hb
    exact ⟨h, hd, hb.symm⟩

/-! ### The CRC, and a string that ends in its own (R104) -/

/-- Settles O14: the register is computed bit by bit for each string. -/
theorem crcOfTheSpecsVectors : Obligations.CrcOfTheSpecsVectors := by
  unfold Obligations.CrcOfTheSpecsVectors
  decide +kernel

theorem crcStep_ofNat {n : Nat} (hn : n < 2 ^ 15) : crcStep (BitVec.ofNat 16 n) = BitVec.ofNat 16 (2 * n) := by
  have htop : (BitVec.ofNat 16 n).getLsbD 15 = false := by
    rw [BitVec.getLsbD_ofNat, Nat.testBit_lt_two_pow hn, Bool.and_false]
  rw [crcStep, htop, if_neg Bool.false_ne_true, BitVec.shiftLeft_eq_mul_twoPow, Nat.mul_comm 2, BitVec.ofNat_mul]
  rfl

/-- The low byte of a register whose high byte is empty moves up whole: no step meets a top bit. -/
theorem crcEight_ofNat {n : Nat} (hn : n < 256) : crcEight (BitVec.ofNat 16 n) = BitVec.ofNat 16 (n * 256) := by
  rw [crcEight, crcStep_ofNat, crcStep_ofNat, crcStep_ofNat, crcStep_ofNat, crcStep_ofNat, crcStep_ofNat,
    crcStep_ofNat, crcStep_ofNat]
  · exact congrArg _ (by omega)
  all_goals omega

/-- A byte in the place where `crcByte` puts it. -/
theorem getLsbD_ofNat_mul_256 (b : Byte) {i : Nat} (hi : i < 16) :
    (BitVec.ofNat 16 (b.toNat * 256)).getLsbD i = (decide (8 ≤ i) && b.getLsbD (i - 8)) := by
  rw [BitVec.getLsbD_ofNat, decide_eq_true hi, Bool.true_and]
  exact Nat.testBit_mul_two_pow b.toNat i 8

/-- The high byte of a register, read as data, clears the high byte. -/
theorem xor_hiByte (r : Half) : r ^^^ BitVec.ofNat 16 ((hiByte r).toNat * 256) = BitVec.ofNat 16 (loByte r).toNat := by
  apply BitVec.eq_of_getLsbD_eq
  intro i hi
  rw [BitVec.getLsbD_xor, getLsbD_ofNat_mul_256 _ hi, BitVec.getLsbD_ofNat, BitVec.testBit_toNat, hiByte, loByte,
    BitVec.getLsbD_extractLsb', BitVec.getLsbD_extractLsb']
  by_cases h8 : 8 ≤ i
  · have hlt : i - 8 < 8 := by omega
    have hge : ¬ i < 8 := by omega
    simp [h8, hlt, hge]
  · have hlt : i < 8 := by omega
    simp [h8, hi, hlt]

/-- Settles O15: the first byte leaves the register's low byte, moved up; the second, which is that byte, clears it. -/
theorem crcOfStringWithItsCrcIsZero : Obligations.CrcOfStringWithItsCrcIsZero := by
  intro d
  have hhi : crcByte (crc16 d) (hiByte (crc16 d)) = BitVec.ofNat 16 ((loByte (crc16 d)).toNat * 256) := by
    rw [crcByte, xor_hiByte, crcEight_ofNat (loByte (crc16 d)).isLt]
  rw [crc16_append, List.foldl_cons, List.foldl_cons, List.foldl_nil, hhi, crcByte, BitVec.xor_self]
  rfl

/-! ### CHECKSUM and VERIFY (R105, R106) -/

/-- Settles O16: the answer to any header of this payload is `headerChecksum`, which reads no checksum field. -/
theorem checksumCoversHeaderAndPayload : Obligations.ChecksumCoversHeaderAndPayload := by
  intro h p c s hl
  have answer (g : Header) : exec (.checksum g p) s = .next { s with response := some (.okVal (headerChecksum g p)) } :=
    exec_eq_next_of_presented_respond (by simpa [Instr.WellFormed, Instr.wellFormed] using hl) (exec_checksum g p) s
  refine ⟨answer h, ?_⟩
  rw [answer, answer, headerChecksum_checksum]

/-- VERIFY in the words of R106, with D17's bound. -/
theorem verify_eq_true_iff (f : Bytes) :
    verify f = true ↔ 16 ≤ f.length ∧ frameChecksum f = storedChecksum f := by
  by_cases hlt : f.length < 16
  · simp [verify, hlt, Nat.not_le.mpr hlt]
  · simp [verify, hlt, Nat.not_lt.mp hlt]

/-- Settles O17: the answer is the truth value of `verify_eq_true_iff`. -/
theorem verifyComparesWithStoredValue : Obligations.VerifyComparesWithStoredValue := by
  intro f s hl
  have hw : (Instr.verify f).WellFormed := by simpa [Instr.WellFormed, Instr.wellFormed] using hl
  rw [exec_eq_next_of_presented_respond hw (exec_verify f)]
  simp only [boolVal, verify_eq_true_iff]
  rfl

/-! ### A frame with one byte changed (R107) -/

/-- What goes before sets the register, which one byte reads injectively; what follows keeps registers apart. -/
theorem crc16_append_cons_injective (a b : Bytes) : Function.Injective fun x => crc16 (a ++ x :: b) := by
  intro x y e
  simp only [crc16_append, List.foldl_cons] at e
  exact crcByte_injective_byte _ (foldl_crcByte_injective b e)

theorem crc16_set_ne {d : Bytes} {j : Nat} (hj : j < d.length) {x : Byte} (hx : x ≠ d[j]) :
    crc16 (d.set j x) ≠ crc16 d := by
  have hset : d.set j x = d.take j ++ x :: d.drop (j + 1) := by rw [List.set_eq_take_append_cons_drop, if_pos hj]
  have hd : d = d.take j ++ d[j] :: d.drop (j + 1) := by simp
  intro e
  rw [hset] at e
  exact hx (crc16_append_cons_injective _ _ (e.trans (congrArg crc16 hd)))

theorem be16_inj {a b c d : Byte} : be16 a b = be16 c d ↔ a = c ∧ b = d := by
  constructor
  · intro e
    exact ⟨by simpa using congrArg hiByte e, by simpa using congrArg loByte e⟩
  · rintro ⟨rfl, rfl⟩
    rfl

theorem storedChecksum_set_of_ne {f : Bytes} {j : Nat} (h14 : j ≠ 14) (h15 : j ≠ 15) (x : Byte) :
    storedChecksum (f.set j x) = storedChecksum f := by
  simp [storedChecksum, List.getElem?_set_ne h14, List.getElem?_set_ne h15]

theorem storedChecksum_set_ne {f : Bytes} {j : Nat} (hj : j < f.length) (hfield : j = 14 ∨ j = 15) {x : Byte}
    (hx : x ≠ f[j]) : storedChecksum (f.set j x) ≠ storedChecksum f := by
  rw [storedChecksum, storedChecksum, Ne, be16_inj]
  rcases hfield with rfl | rfl
  · simp [hj, hx]
  · simp [hj, hx]

theorem frameChecksum_set_of_field {j : Nat} (hfield : j = 14 ∨ j = 15) (f : Bytes) (x : Byte) :
    frameChecksum (f.set j x) = frameChecksum f := by
  rw [frameChecksum, List.take_set_of_le (by omega), List.drop_set_of_lt (by omega), frameChecksum]

theorem frameChecksum_set_ne {f : Bytes} {j : Nat} (hj : j < f.length) (h14 : j ≠ 14) (h15 : j ≠ 15) {x : Byte}
    (hx : x ≠ f[j]) : frameChecksum (f.set j x) ≠ frameChecksum f := by
  unfold frameChecksum
  by_cases hlt : j < 14
  · have hcover : (f.set j x).take 14 ++ (f.set j x).drop 16 = (f.take 14 ++ f.drop 16).set j x := by
      rw [List.take_set, List.drop_set_of_lt (by omega), List.set_append_left _ _ (by simp; omega)]
    rw [hcover]
    exact crc16_set_ne (by simp; omega) (by simpa [List.getElem_append, hlt, hj] using hx)
  · obtain ⟨i, rfl⟩ : ∃ i, j = 16 + i := ⟨j - 16, by omega⟩
    have hlen : (f.take 14).length = 14 := by simp; omega
    have hcover : (f.set (16 + i) x).take 14 ++ (f.set (16 + i) x).drop 16 =
        (f.take 14 ++ f.drop 16).set (14 + i) x := by
      rw [List.take_set_of_le (by omega), List.drop_set, if_neg (by omega), List.set_append_right _ _ (by omega),
        hlen, Nat.add_sub_cancel_left, Nat.add_sub_cancel_left]
    rw [hcover]
    exact crc16_set_ne (by simp; omega) (by simpa [List.getElem_append, hlen] using hx)

/-- Of the two values VERIFY compares, a changed byte changes exactly one. -/
theorem verify_set_eq_false {f : Bytes} {j : Nat} (hv : verify f = true) (hj : j < f.length) {x : Byte}
    (hx : x ≠ f[j]) : verify (f.set j x) = false := by
  obtain ⟨-, heq⟩ := (verify_eq_true_iff f).mp hv
  rw [Bool.eq_false_iff, Ne, verify_eq_true_iff]
  rintro ⟨-, hset⟩
  by_cases hfield : j = 14 ∨ j = 15
  · rw [frameChecksum_set_of_field hfield, heq] at hset
    exact storedChecksum_set_ne hj hfield hx hset.symm
  · obtain ⟨h14, h15⟩ := not_or.mp hfield
    rw [storedChecksum_set_of_ne h14 h15, ← heq] at hset
    exact frameChecksum_set_ne hj h14 h15 hx hset

theorem xor_twoPow_ne (b : Byte) {k : Nat} (hk : k < 8) : b ^^^ BitVec.ofNat 8 (2 ^ k) ≠ b := by
  intro e
  have hbit : (b ^^^ BitVec.ofNat 8 (2 ^ k)).getLsbD k = b.getLsbD k := congrArg (·.getLsbD k) e
  rw [BitVec.getLsbD_xor, BitVec.getLsbD_ofNat, Nat.testBit_two_pow_self] at hbit
  simp [hk] at hbit

/-- Settles O18: a byte with one bit inverted is another byte. -/
theorem singleBitFlipFailsVerification : Obligations.SingleBitFlipFailsVerification := by
  intro f j k hv hj hk
  rw [List.getD_eq_getElem _ _ hj]
  exact verify_set_eq_false hv hj (xor_twoPow_ne _ hk)

end Sys2Proof.Machine
end

section
/-! PROOFS. The Fragment Engine's transmit side (`41_fragment_engine.md`): the count, the emitted frame, and what makes
that frame valid. -/

namespace Sys2Proof.Machine

/-- Settles O19: the count in the words of the source's law, below the bound. -/
theorem fragCountAnswersCeiling : Obligations.FragCountAnswersCeiling := by
  intro len s hlen
  have hw : (Instr.fragCount len).WellFormed := by simpa [Instr.WellFormed, Instr.wellFormed] using hlen
  rw [exec_eq_next_of_presented_respond hw (exec_fragCount len), fragCount_eq]
  by_cases hlt : 1824 < len
  · rw [if_pos hlt, if_pos hlt]
    rfl
  · rw [if_neg hlt, if_neg hlt]
    rfl

/-! ### The emitted frame -/

/-- The number of fragments of a payload (R122). -/
abbrev fragmentTotal (p : Bytes) : Nat := max 1 ((p.length + 227) / 228)

theorem fragCount_of_length_le {p : Bytes} (hp : p.length ≤ 1024) : fragCount p.length = some (fragmentTotal p) := by
  rw [fragCount_eq, if_neg (by omega)]

/-- The header of emitted fragment `idx`: the clone, with the checksum of the frame it heads (R124). -/
def emittedHeader (h : Header) (p : Bytes) (idx : Byte) : Header :=
  { fragmentHeader h idx (fragmentTotal p) with
    checksum := headerChecksum (fragmentHeader h idx (fragmentTotal p)) (fragmentSlice p idx.toNat) }

/-- The frame of fragment `idx`. -/
def emittedFrame (h : Header) (p : Bytes) (idx : Byte) : Bytes :=
  serialize (emittedHeader h p idx) ++ fragmentSlice p idx.toNat

theorem getFragment_eq (h : Header) {p : Bytes} (hp : p.length ≤ 1024) (idx : Byte) :
    getFragment h p idx = if fragmentTotal p ≤ idx.toNat then .none else .okData (emittedFrame h p idx) := by
  rw [emittedFrame, emittedHeader, ← sealFrame_serialize_append, getFragment, fragCount_of_length_le hp]

/-- The checksum an emitted frame carries is its own, which no checksum field enters (R105). -/
theorem headerChecksum_emittedHeader (h : Header) (p : Bytes) (idx : Byte) :
    headerChecksum (emittedHeader h p idx) (fragmentSlice p idx.toNat) = (emittedHeader h p idx).checksum := by
  rw [emittedHeader, headerChecksum_checksum]

theorem verify_emittedFrame (h : Header) (p : Bytes) (idx : Byte) : verify (emittedFrame h p idx) = true := by
  rw [verify_eq_true_iff, emittedFrame, frameChecksum_serialize_append, storedChecksum_serialize_append]
  exact ⟨by simp, headerChecksum_emittedHeader h p idx⟩

theorem deserialize_emittedFrame {h : Header} (hv : h.version = 1) (p : Bytes) (idx : Byte) :
    deserialize (emittedFrame h p idx) = some (emittedHeader h p idx) :=
  deserialize_serialize_append (h := emittedHeader h p idx) hv _

theorem emittedFrame_length (h : Header) (p : Bytes) (idx : Byte) :
    16 ≤ (emittedFrame h p idx).length ∧ (emittedFrame h p idx).length ≤ 244 := by
  simp only [emittedFrame, fragmentSlice_eq, List.length_append, serialize_length, List.length_take]
  omega

theorem fragmentTotal_le {p : Bytes} (hp : p.length ≤ 1024) : fragmentTotal p ≤ 5 := by
  simp only [fragmentTotal]
  omega

/-- A count of fragments fits the header's byte for it. -/
theorem toNat_fragmentTotal {p : Bytes} (hp : p.length ≤ 1024) :
    (BitVec.ofNat 8 (fragmentTotal p)).toNat = fragmentTotal p := by
  have hle := fragmentTotal_le hp
  rw [BitVec.toNat_ofNat, Nat.mod_eq_of_lt (by omega)]

theorem exec_getFragment_of_length_le (h : Header) {p : Bytes} (hp : p.length ≤ 1024) (idx : Byte) (s : State) :
    exec (.getFragment h p idx) s = .next (s.withResponse
      (if fragmentTotal p ≤ idx.toNat then .none else .okData (emittedFrame h p idx))) := by
  have hw : (Instr.getFragment h p idx).WellFormed := by simpa [Instr.WellFormed, Instr.wellFormed] using hp
  rw [exec_eq_next_of_presented_respond hw (exec_getFragment h p idx), getFragment_eq h hp]
  rfl

/-- Settles O20: the answer with the slice and the frame's own checksum written out. -/
theorem getFragmentBuildsTheFrame : Obligations.GetFragmentBuildsTheFrame := by
  intro h p idx s hp
  rw [exec_getFragment_of_length_le h hp, emittedFrame, emittedHeader, headerChecksum, fragmentSlice_eq]
  rfl

/-- Settles O21: a frame is emitted for an index below the count, and it is the sealed frame of that index. -/
theorem emittedFramesAreValid : Obligations.EmittedFramesAreValid := by
  intro h p idx s t f hp hv e hr
  rw [exec_getFragment_of_length_le h hp, Host.Outcome.next.injEq] at e
  rw [← e, State.withResponse_response, Option.some.injEq] at hr
  split at hr
  · cases hr
  · rename_i hidx
    obtain rfl := Response.okData.inj hr
    obtain ⟨hmin, hmax⟩ := emittedFrame_length h p idx
    have htotal : (emittedHeader h p idx).totalFragments.toNat = fragmentTotal p := toNat_fragmentTotal hp
    have hle := fragmentTotal_le hp
    exact ⟨hmin, hmax, verify_emittedFrame h p idx, emittedHeader h p idx, deserialize_emittedFrame hv p idx,
      rfl, by omega, by omega, rfl, rfl, rfl, rfl, rfl⟩

end Sys2Proof.Machine
end

section
/-! PROOFS. ADD_FRAGMENT (`41_fragment_engine.md`): what lookup, store and removal do to a table whose keys are distinct
or that lacks the key, and the operation's outcomes one by one. -/

namespace Sys2Proof.Machine

/-! ### A table whose keys are distinct -/

theorem key_eq_iff_of_nodup {t : List FragmentBuffer} (hd : (t.map (·.key)).Nodup) {b x : FragmentBuffer}
    (hb : b ∈ t) (hx : x ∈ t) : x.key = b.key ↔ x = b :=
  ⟨fun e => List.inj_on_of_nodup_map hd hx hb e, fun e => e ▸ rfl⟩

/-- Of the buffers of a sound table, writing back touches the one of that key alone. -/
theorem putBuffer_of_nodup {t : List FragmentBuffer} (hd : (t.map (·.key)).Nodup) {b c : FragmentBuffer} (hb : b ∈ t)
    (hk : c.key = b.key) : putBuffer t c = t.map fun x => if x = b then c else x := by
  apply List.map_congr_left
  intro x hx
  simp only [hk, key_eq_iff_of_nodup hd hb hx]

theorem putBuffer_self_of_nodup {t : List FragmentBuffer} (hd : (t.map (·.key)).Nodup) {b : FragmentBuffer}
    (hb : b ∈ t) : putBuffer t b = t := by
  rw [putBuffer_of_nodup hd hb rfl]
  exact (List.map_congr_left fun x _ => ite_eq_right_iff.mpr Eq.symm).trans (List.map_id t)

theorem removeBuffer_of_nodup {t : List FragmentBuffer} (hd : (t.map (·.key)).Nodup) {b : FragmentBuffer}
    (hb : b ∈ t) : removeBuffer t b.key = t.filter fun x => decide (x ≠ b) := by
  apply List.filter_congr
  intro x hx
  simp [bne, Bool.beq_eq_decide_eq, key_eq_iff_of_nodup hd hb hx]

theorem obtain_of_mem {t : List FragmentBuffer} (hd : (t.map (·.key)).Nodup) {b : FragmentBuffer} (hb : b ∈ t)
    {h : Header} (hk : b.key = keyOf h) : obtain t h = (t, b) := by
  rw [obtain, ← hk, find_eq_some_of_mem hd hb]

/-- Writing a buffer back puts it in the table of its key. -/
theorem mem_putBuffer_self {t : List FragmentBuffer} {b c : FragmentBuffer} (hb : b ∈ t) (hk : b.key = c.key) :
    c ∈ putBuffer t c :=
  List.mem_map.mpr ⟨b, hb, if_pos hk⟩

/-! ### A table without the key, before one more buffer -/

theorem find_append_singleton {t : List FragmentBuffer} {b : FragmentBuffer} (ht : ∀ x ∈ t, x.key ≠ b.key) :
    find (t ++ [b]) b.key = some b := by
  rw [find, List.find?_append, show t.find? _ = none from (find_eq_none_iff t b.key).mpr ht]
  simp

theorem putBuffer_append_singleton {t : List FragmentBuffer} {b c : FragmentBuffer} (ht : ∀ x ∈ t, x.key ≠ c.key)
    (hk : b.key = c.key) : putBuffer (t ++ [b]) c = t ++ [c] := by
  rw [putBuffer, List.map_append, List.map_singleton, if_pos hk,
    List.map_congr_left fun x hx => if_neg (ht x hx), List.map_id']

theorem removeBuffer_append_singleton {t : List FragmentBuffer} {b : FragmentBuffer}
    (ht : ∀ x ∈ t, x.key ≠ b.key) : removeBuffer (t ++ [b]) b.key = t := by
  rw [removeBuffer, List.filter_append, List.filter_eq_self.mpr fun x hx => bne_iff_ne.mpr (ht x hx)]
  simp

theorem obtain_of_absent {t : List FragmentBuffer} {h : Header} (ht : ∀ x ∈ t, x.key ≠ keyOf h) :
    obtain t h = (makeRoom t ++ [newBuffer h], newBuffer h) := by
  rw [obtain, (find_eq_none_iff t _).mpr ht]

theorem makeRoom_absent {t : List FragmentBuffer} {k : Key} (ht : ∀ x ∈ t, x.key ≠ k) :
    ∀ x ∈ makeRoom t, x.key ≠ k :=
  fun x hx => ht x ((makeRoom_sublist t).subset hx)

/-! ### Slots -/

theorem slotAt_of_getElem? {b : FragmentBuffer} {j : Nat} {o : Option Bytes} (h : b.slots[j]? = some o) :
    slotAt b j = o := by
  rw [slotAt, h]
  rfl

theorem storeSlice_of_empty {b : FragmentBuffer} {j : Nat} (h : slotAt b j = none) (x : Bytes) :
    storeSlice b j x = { b with slots := b.slots.set j (some x), receivedCount := b.receivedCount + 1 } := by
  rw [storeSlice, h]

theorem storeSlice_of_filled {b : FragmentBuffer} {j : Nat} {y : Bytes} (h : slotAt b j = some y) (x : Bytes) :
    storeSlice b j x = b := by
  rw [storeSlice, h]

/-- A sound buffer has as many fragments as filled slots, so never more than it has slots. -/
theorem storeSlice_receivedCount_le {b : FragmentBuffer} (hb : BufferOk b) {j : Nat} (hj : j < 8) (x : Bytes) :
    (storeSlice b j x).receivedCount ≤ 8 := by
  obtain ⟨hlen, -, hcount, -⟩ := hb
  rw [Config.par_maxFragments] at hlen
  rcases storeSlice_cases b j x with ⟨hn, e⟩ | ⟨y, -, e⟩ <;> rw [e]
  · have hset := filter_isSome_set (x := x) (slotAt_eq_none (by omega) hn)
    have hle := List.length_filter_le Option.isSome (b.slots.set j (some x))
    rw [List.length_set] at hle
    simp only [filledSlots] at hcount ⊢
    omega
  · have hle := List.length_filter_le Option.isSome b.slots
    simp only [filledSlots] at hcount
    omega

/-! ### Concatenation -/

theorem map_slotAt_range' {b : FragmentBuffer} {n : Nat} (hn : n ≤ b.slots.length) :
    (List.range' 0 n).map (slotAt b) = b.slots.take n := by
  apply List.ext_getElem (by simp [hn])
  intro i hi _
  have hlt : i < b.slots.length := by
    simp only [List.length_map, List.length_range'] at hi
    omega
  simp [slotAt, hlt]

/-- The slices of filled slots, read as the spec's payload reads slots. -/
theorem map_getD_map_some (xs : List Bytes) : (xs.map some).map (·.getD []) = xs := by
  rw [List.map_map]
  exact List.map_id' xs

/-- Filled slots below the total that fit are the payload, under the originating header (R133, R134, R136). -/
theorem assemble_of_filled {b : FragmentBuffer} {xs : List Bytes} (hn : b.totalExpected.toNat ≤ b.slots.length)
    (hs : b.slots.take b.totalExpected.toNat = xs.map some) (hl : xs.flatten.length ≤ 1024) :
    assemble b = .complete ⟨b.header, xs.flatten⟩ := by
  have hjoin : joinSlots b b.totalExpected.toNat 0 [] = some xs.flatten :=
    (joinSlots_eq_some_iff b _ 0 [] _ (by simp)).mpr ⟨xs, (map_slotAt_range' hn).trans hs, rfl, hl⟩
  rw [assemble, hjoin]

/-- What a complete buffer answers, when its total is within its slots (R133, R134, R136). -/
theorem assemble_eq {b : FragmentBuffer} (hn : b.totalExpected.toNat ≤ b.slots.length) :
    assemble b =
      if none ∈ b.slots.take b.totalExpected.toNat ∨
          1024 < ((b.slots.take b.totalExpected.toNat).map (·.getD [])).flatten.length
      then .error
      else .complete ⟨b.header, ((b.slots.take b.totalExpected.toNat).map (·.getD [])).flatten⟩ := by
  split
  · rename_i hbad
    cases ha : assemble b with
    | error => rfl
    | incomplete => exact absurd ha (assemble_ne_incomplete b)
    | complete m =>
      exfalso
      unfold assemble at ha
      split at ha
      · rename_i out ho
        obtain ⟨xs, hx, rfl, hl⟩ := (joinSlots_eq_some_iff b _ 0 [] out (by simp)).mp ho
        rw [map_slotAt_range' hn] at hx
        rw [hx, map_getD_map_some] at hbad
        rcases hbad with hmissing | hlong
        · simp at hmissing
        · exact Nat.not_le.mpr hlong hl
      · cases ha
  · rename_i hgood
    obtain ⟨hfilled, hfit⟩ := not_or.mp hgood
    refine assemble_of_filled hn ?_ (Nat.not_lt.mp hfit)
    rw [List.map_map]
    refine (List.map_id _).symm.trans (List.map_congr_left fun o ho => ?_)
    cases o with
    | none => exact absurd ho hfilled
    | some x => rfl

/-! ### ADD_FRAGMENT's outcomes -/

/-- What the command does is what `addFragment` does to the table, and its answer. -/
theorem exec_addFragment_of_eq {h : Header} {x : Bytes} {s : State} {t : List FragmentBuffer} {r : AddResult}
    (hx : x.length ≤ 228) (e : addFragment Config.fragRejectOrder s.ft h x = (t, r)) :
    exec (.addFragment h x) s = .next { s with ft := t, response := some (addResponse r) } :=
  exec_addFragment_eq_next_iff.mpr ⟨hx, by rw [e]; rfl⟩

theorem addFragment_of_completing (ro : FragRejectOrder) {t u : List FragmentBuffer} {h : Header} {x : Bytes}
    {b : FragmentBuffer} (hb : badIndex h = false) (ho : obtain t h = (u, b))
    (hc : (storeSlice b h.fragmentIndex.toNat x).receivedCount = b.totalExpected.toNat) :
    addFragment ro t h x = (removeBuffer u b.key, assemble (storeSlice b h.fragmentIndex.toNat x)) := by
  simp [addFragment, hb, ho, hc]

theorem addFragment_of_storing (ro : FragRejectOrder) {t u : List FragmentBuffer} {h : Header} {x : Bytes}
    {b : FragmentBuffer} (hb : badIndex h = false) (ho : obtain t h = (u, b))
    (hc : (storeSlice b h.fragmentIndex.toNat x).receivedCount ≠ b.totalExpected.toNat) :
    addFragment ro t h x = (putBuffer u (storeSlice b h.fragmentIndex.toNat x), .incomplete) := by
  simp [addFragment, hb, ho, hc]

/-- A rejected fragment leaves the table, or, under `ALLOCATE_FIRST`, the buffer its key did not have (R128). -/
theorem rejectTable_eq (ro : FragRejectOrder) (t : List FragmentBuffer) (h : Header) :
    rejectTable ro t h =
      if ro = .checkFirst ∨ (∃ b ∈ t, b.key = keyOf h) then t else makeRoom t ++ [newBuffer h] := by
  cases ro with
  | checkFirst => exact (if_pos (.inl rfl)).symm
  | allocateFirst =>
    rw [rejectTable]
    rcases obtain_cases t h with ⟨b, hf, e⟩ | ⟨hf, e⟩ <;> rw [e]
    · exact (if_pos (.inr ⟨b, find_eq_some hf⟩)).symm
    · refine (if_neg ?_).symm
      rintro (e | ⟨b, hb, hk⟩)
      · cases e
      · exact (find_eq_none_iff t _).mp hf b hb hk

/-- Settles O22: the fragment is rejected, and the table is the one of `rejectTable_eq`. -/
theorem addFragmentRejectsIndexOutOfRange : Obligations.AddFragmentRejectsIndexOutOfRange := by
  intro h x s hx hbad
  have hb : badIndex h = true := (badIndex_eq_true_iff h).mpr hbad
  have ha : addFragment Config.fragRejectOrder s.ft h x = (rejectTable Config.fragRejectOrder s.ft h, .error) := by
    rw [addFragment, if_pos hb]
  rw [exec_addFragment_of_eq hx ha, rejectTable_eq]
  rfl

/-- Settles O23: the key is absent, so the fragment goes into a new buffer, which it does not complete. -/
theorem addFragmentStartsABuffer : Obligations.AddFragmentStartsABuffer := by
  intro h x s hx hlt hlt8 htotal habsent
  have hb : badIndex h = false := (badIndex_eq_false_iff h).mpr ⟨hlt, hlt8⟩
  have hstore := storeSlice_newBuffer h h.fragmentIndex.toNat x
  have hc : (storeSlice (newBuffer h) h.fragmentIndex.toNat x).receivedCount ≠
      (newBuffer h).totalExpected.toNat := by
    rw [hstore]
    exact Nat.ne_of_lt htotal
  have ha := addFragment_of_storing Config.fragRejectOrder hb (obtain_of_absent habsent) hc
  have hroom := makeRoom_absent habsent
  rw [putBuffer_append_singleton (by rw [storeSlice_key]; exact hroom) (by rw [storeSlice_key]), hstore] at ha
  exact exec_addFragment_of_eq hx ha

/-- Settles O24: the new buffer is complete with its first fragment, and what is removed is that buffer. -/
theorem addFragmentCompletesASingleFragment : Obligations.AddFragmentCompletesASingleFragment := by
  intro h x s hx hindex htotal habsent
  have hidx : h.fragmentIndex.toNat = 0 := by rw [hindex]; rfl
  have htot : h.totalFragments.toNat = 1 := by rw [htotal]; rfl
  have hb : badIndex h = false := (badIndex_eq_false_iff h).mpr (by omega)
  have hc : (storeSlice (newBuffer h) h.fragmentIndex.toNat x).receivedCount =
      (newBuffer h).totalExpected.toNat := by
    rw [storeSlice_newBuffer]
    exact htot.symm
  have ha := addFragment_of_completing Config.fragRejectOrder hb (obtain_of_absent habsent) hc
  have hroom : ∀ y ∈ makeRoom s.ft, y.key ≠ (newBuffer h).key := makeRoom_absent habsent
  rw [removeBuffer_append_singleton hroom, hidx, assemble_single htot (by omega)] at ha
  exact exec_addFragment_of_eq hx ha

/-- Settles O25: the slot is filled, so nothing is stored; and a buffer with a filled slot is not complete (R33). -/
theorem addFragmentIgnoresADuplicateIndex : Obligations.AddFragmentIgnoresADuplicateIndex := by
  intro h x y b s hinv hx hlt hlt8 hmem hk hslot
  obtain ⟨⟨-, hd, hok⟩, -⟩ := hinv
  obtain ⟨-, -, hcount, -, -, hdone⟩ := hok b hmem
  have hb : badIndex h = false := (badIndex_eq_false_iff h).mpr ⟨hlt, hlt8⟩
  have hstore := storeSlice_of_filled (slotAt_of_getElem? hslot) x
  have hpos : 0 < filledSlots b :=
    List.length_pos_of_mem (List.mem_filter.mpr ⟨List.mem_of_getElem? hslot, rfl⟩)
  have hc : (storeSlice b h.fragmentIndex.toNat x).receivedCount ≠ b.totalExpected.toNat := by
    rw [hstore]
    intro e
    have hzero := (hdone e).1
    omega
  have ha := addFragment_of_storing Config.fragRejectOrder hb (obtain_of_mem hd hmem hk) hc
  rw [hstore, putBuffer_self_of_nodup hd hmem] at ha
  exact exec_addFragment_of_eq hx ha

/-- Settles O26: the stored buffer goes back to its place. -/
theorem addFragmentStoresIntoItsBuffer : Obligations.AddFragmentStoresIntoItsBuffer := by
  intro h x b s hinv hx hlt hlt8 hmem hk hslot hmore
  obtain ⟨⟨-, hd, -⟩, -⟩ := hinv
  have hb : badIndex h = false := (badIndex_eq_false_iff h).mpr ⟨hlt, hlt8⟩
  have hstore := storeSlice_of_empty (slotAt_of_getElem? hslot) x
  have hc : (storeSlice b h.fragmentIndex.toNat x).receivedCount ≠ b.totalExpected.toNat := by
    rw [hstore]
    exact hmore
  have ha := addFragment_of_storing Config.fragRejectOrder hb (obtain_of_mem hd hmem hk) hc
  rw [putBuffer_of_nodup hd hmem (storeSlice_key _ _ _), hstore] at ha
  exact exec_addFragment_of_eq hx ha

/-- Settles O27: the count is bounded by the slots, so the total is, and concatenation reads the slots below it. -/
theorem addFragmentCompletesItsBuffer : Obligations.AddFragmentCompletesItsBuffer := by
  intro h x b s hinv hx hlt hlt8 hmem hk hslot hlast
  obtain ⟨⟨-, hd, hok⟩, -⟩ := hinv
  have hb : badIndex h = false := (badIndex_eq_false_iff h).mpr ⟨hlt, hlt8⟩
  have hstore := storeSlice_of_empty (slotAt_of_getElem? hslot) x
  have hc : (storeSlice b h.fragmentIndex.toNat x).receivedCount = b.totalExpected.toNat := by
    rw [hstore]
    exact hlast
  have hslots : (b.slots.set h.fragmentIndex.toNat (some x)).length = 8 := by
    rw [List.length_set]
    exact (hok b hmem).1
  have hn : b.totalExpected.toNat ≤ (b.slots.set h.fragmentIndex.toNat (some x)).length := by
    rw [hslots, ← hc]
    exact storeSlice_receivedCount_le (hok b hmem) hlt8 x
  have ha := addFragment_of_completing Config.fragRejectOrder hb (obtain_of_mem hd hmem hk) hc
  rw [removeBuffer_of_nodup hd hmem, hstore, assemble_eq hn] at ha
  rw [exec_addFragment_of_eq hx ha, apply_ite addResponse]
  rfl

/-- Settles O28: a rejected fragment finds the buffer there; a stored one leaves it, as the count stays within 8. -/
theorem bufferOfMoreThanEightNeverCompletes : Obligations.BufferOfMoreThanEightNeverCompletes := by
  intro h x b s hinv hx hmem hk htotal
  obtain ⟨⟨-, hd, hok⟩, -⟩ := hinv
  have ho : obtain s.ft h = (s.ft, b) := obtain_of_mem hd hmem hk
  rcases addFragment_cases Config.fragRejectOrder s.ft h x with ⟨-, e⟩ | ⟨hb, hc, -⟩ | ⟨-, -, e⟩
  · refine ⟨_, exec_addFragment_of_eq hx e, .inr rfl, b, ?_, rfl, rfl, rfl⟩
    rw [rejectTable_eq, if_pos (.inr ⟨b, hmem, hk⟩)]
    exact hmem
  · have hle := storeSlice_receivedCount_le (hok b hmem) ((badIndex_eq_false_iff h).mp hb).2 x
    simp only [ho] at hc
    omega
  · rw [ho] at e
    exact ⟨_, exec_addFragment_of_eq hx e, .inl rfl, _, mem_putBuffer_self hmem (storeSlice_key _ _ _).symm,
      storeSlice_key _ _ _, storeSlice_totalExpected _ _ _, storeSlice_header _ _ _⟩

end Sys2Proof.Machine
end

section
/-! PROOFS. Reassembly in any order (`41_fragment_engine.md` R137): the buffer a set of arrived fragments leaves, the
Fragment Table along a run, and the runs of ADD_FRAGMENT and PROCESS. -/

namespace Sys2Proof.Machine

/-! ### The buffer and the table after some fragments -/

/-- The buffer created by a fragment with header `h`, once the fragments `rs` of a message with slices `f` arrived. -/
def partialBuffer (h : Header) (f : Nat → Bytes) (rs : List Nat) : FragmentBuffer where
  key := keyOf h
  header := h
  slots := (List.range 8).map fun j => if j ∈ rs then some (f j) else none
  receivedCount := rs.length
  totalExpected := h.totalFragments

/-- The Fragment Table after the fragments `rs`, in the order of their arrival on the table `t`: room was made for a
new buffer, whose originating header is that of the first of them. -/
def tableAfter (t : List FragmentBuffer) (g : Nat → Header) (f : Nat → Bytes) : List Nat → List FragmentBuffer
  | [] => t
  | a :: rs => makeRoom t ++ [partialBuffer (g a) f (a :: rs)]

theorem partialBuffer_nil (h : Header) (f : Nat → Bytes) : partialBuffer h f [] = newBuffer h := by
  simp [partialBuffer, newBuffer]

theorem slotAt_partialBuffer (h : Header) (f : Nat → Bytes) {rs : List Nat} {j : Nat} (hj : j ∉ rs) :
    slotAt (partialBuffer h f rs) j = none := by
  by_cases hlt : j < 8
  · exact slotAt_of_getElem? (by simp [partialBuffer, hlt, hj])
  · simp [slotAt, partialBuffer, hlt]

/-- One more fragment arrives. -/
theorem storeSlice_partialBuffer (h : Header) (f : Nat → Bytes) {rs : List Nat} {j : Nat} (hj : j ∉ rs) :
    storeSlice (partialBuffer h f rs) j (f j) = partialBuffer h f (rs ++ [j]) := by
  have hslots : ((List.range 8).map fun i => if i ∈ rs then some (f i) else none).set j (some (f j)) =
      (List.range 8).map fun i => if i ∈ rs ++ [j] then some (f i) else none := by
    apply List.ext_getElem (by simp)
    intro i _ _
    rw [List.getElem_set]
    by_cases hij : j = i
    · simp [hij]
    · simp [hij, Ne.symm hij]
  rw [storeSlice_of_empty (slotAt_partialBuffer h f hj)]
  simp only [partialBuffer, hslots, List.length_append, List.length_singleton]

/-- All the fragments have arrived. -/
theorem assemble_partialBuffer {h : Header} {f : Nat → Bytes} {rs : List Nat} {n : Nat}
    (htotal : h.totalFragments.toNat = n) (hn : n ≤ 8) (hrs : rs.Perm (List.range n))
    (hl : ((List.range n).map f).flatten.length ≤ 1024) :
    assemble (partialBuffer h f rs) = .complete ⟨h, ((List.range n).map f).flatten⟩ := by
  have htotal' : (partialBuffer h f rs).totalExpected.toNat = n := htotal
  refine assemble_of_filled (by rw [htotal']; simpa [partialBuffer] using hn) ?_ hl
  rw [htotal', List.map_map, partialBuffer, ← List.map_take, List.take_range, Nat.min_eq_left hn]
  exact List.map_congr_left fun j hj => if_pos (hrs.mem_iff.mpr hj)

/-! ### The fragments of one message -/

/-- The headers `g` and slices `f` of a message of `n` fragments with key `k`, whose payload is `p`. -/
structure MessageFragments (k : Key) (n : Nat) (p : Bytes) (g : Nat → Header) (f : Nat → Bytes) : Prop where
  key (j : Nat) : keyOf (g j) = k
  total (j : Nat) : (g j).totalFragments.toNat = n
  index {j : Nat} (hj : j < n) : (g j).fragmentIndex.toNat = j
  total_le : n ≤ 8
  payload : ((List.range n).map f).flatten = p
  payload_length : p.length ≤ 1024

/-- In an arrival order of the indices below `n`, the next one is one of them and has not come before. -/
theorem next_index_of_perm {rs l : List Nat} {j n : Nat} (hperm : (rs ++ j :: l).Perm (List.range n)) :
    j < n ∧ j ∉ rs :=
  ⟨List.mem_range.mp (hperm.subset (by simp)), fun hmem =>
    List.disjoint_of_nodup_append (hperm.nodup_iff.mpr List.nodup_range) hmem List.mem_cons_self⟩

section
variable {k : Key} {n : Nat} {p : Bytes} {g : Nat → Header} {f : Nat → Bytes} {t : List FragmentBuffer}

theorem MessageFragments.badIndex_eq_false (m : MessageFragments k n p g f) {j : Nat} (hj : j < n) :
    badIndex (g j) = false := by
  have hle := m.total_le
  rw [badIndex_eq_false_iff, m.index hj, m.total]
  omega

theorem MessageFragments.makeRoom_absent (m : MessageFragments k n p g f) (ht : ∀ b ∈ t, b.key ≠ k) (j : Nat)
    (rs : List Nat) : ∀ b ∈ makeRoom t, b.key ≠ (partialBuffer (g j) f rs).key :=
  Machine.makeRoom_absent fun b hb e => ht b hb (e.trans (m.key j))

/-- The buffer a fragment is stored into: the one of those that arrived before it, or its own new one. -/
theorem MessageFragments.obtain_tableAfter (m : MessageFragments k n p g f) (ht : ∀ b ∈ t, b.key ≠ k)
    (rs : List Nat) (j : Nat) :
    obtain (tableAfter t g f rs) (g j) =
      (makeRoom t ++ [partialBuffer (g ((rs ++ [j]).headD 0)) f rs],
        partialBuffer (g ((rs ++ [j]).headD 0)) f rs) := by
  cases rs with
  | nil =>
    have hnew := partialBuffer_nil (g j) f
    exact hnew ▸ obtain_of_absent (m.key j ▸ ht)
  | cons a rs =>
    have hk : (partialBuffer (g a) f (a :: rs)).key = keyOf (g j) := (m.key a).trans (m.key j).symm
    rw [obtain, tableAfter, ← hk, find_append_singleton (m.makeRoom_absent ht a _)]
    rfl

/-- A fragment that is not the last (R130). -/
theorem MessageFragments.addFragment_more (m : MessageFragments k n p g f) (ro : FragRejectOrder)
    (ht : ∀ b ∈ t, b.key ≠ k) {rs l : List Nat} {j : Nat} (hl : l ≠ [])
    (hperm : (rs ++ j :: l).Perm (List.range n)) :
    addFragment ro (tableAfter t g f rs) (g j) (f j) = (tableAfter t g f (rs ++ [j]), .incomplete) := by
  obtain ⟨hj, hfresh⟩ := next_index_of_perm hperm
  have hlen := hperm.length_eq
  have hpos := List.length_pos_iff.mpr hl
  have hstore := storeSlice_partialBuffer (g ((rs ++ [j]).headD 0)) f hfresh
  have hc :
      (storeSlice (partialBuffer (g ((rs ++ [j]).headD 0)) f rs) (g j).fragmentIndex.toNat (f j)).receivedCount ≠
        (partialBuffer (g ((rs ++ [j]).headD 0)) f rs).totalExpected.toNat := by
    rw [m.index hj, hstore]
    show (rs ++ [j]).length ≠ (g _).totalFragments.toNat
    simp only [List.length_append, List.length_cons, List.length_nil, List.length_range, m.total] at hlen ⊢
    omega
  have hput := putBuffer_append_singleton (b := partialBuffer (g ((rs ++ [j]).headD 0)) f rs)
    (m.makeRoom_absent ht ((rs ++ [j]).headD 0) (rs ++ [j])) rfl
  rw [addFragment_of_storing ro (m.badIndex_eq_false hj) (m.obtain_tableAfter ht rs j) hc, m.index hj, hstore, hput]
  cases rs <;> rfl

/-- The last fragment, whichever it is (R132 to R136). -/
theorem MessageFragments.addFragment_last (m : MessageFragments k n p g f) (ro : FragRejectOrder)
    (ht : ∀ b ∈ t, b.key ≠ k) {rs : List Nat} {j : Nat} (hperm : (rs ++ [j]).Perm (List.range n)) :
    addFragment ro (tableAfter t g f rs) (g j) (f j) =
      (makeRoom t, .complete ⟨g ((rs ++ [j]).headD 0), p⟩) := by
  obtain ⟨hj, hfresh⟩ := next_index_of_perm hperm
  have hlen := hperm.length_eq
  have hstore := storeSlice_partialBuffer (g ((rs ++ [j]).headD 0)) f hfresh
  have hc :
      (storeSlice (partialBuffer (g ((rs ++ [j]).headD 0)) f rs) (g j).fragmentIndex.toNat (f j)).receivedCount =
        (partialBuffer (g ((rs ++ [j]).headD 0)) f rs).totalExpected.toNat := by
    rw [m.index hj, hstore]
    exact hlen.trans (List.length_range.trans (m.total _).symm)
  have hpayload : ((List.range n).map f).flatten.length ≤ 1024 := m.payload ▸ m.payload_length
  rw [addFragment_of_completing ro (m.badIndex_eq_false hj) (m.obtain_tableAfter ht rs j) hc, m.index hj, hstore,
    removeBuffer_append_singleton (m.makeRoom_absent ht _ _),
    assemble_partialBuffer (m.total _) m.total_le hperm hpayload, m.payload]

end

/-! ### A run -/

/-- The state along a run that fills the Fragment Table: `s` with the table `t` and the last answer `q`. -/
def State.during (s : State) (t : List FragmentBuffer) (q : Option Response) : State :=
  { s with ft := t, response := q }

/-- Commands for the indices below `n` in any order, each of which finds the table `T rs` that those before it left:
all but the last are answered `mid`, and the last delivers `p` under the header `g` of the first (R60). -/
theorem runCommands_in_any_order {s u : State} {cmd : Nat → Instr} {T : List Nat → List FragmentBuffer} {n : Nat}
    {mid : Response} {g : Nat → Header} {p : Bytes}
    (hmid : ∀ rs j l q, l ≠ [] → (rs ++ j :: l).Perm (List.range n) →
      exec (cmd j) (s.during (T rs) q) = .next (s.during (T (rs ++ [j])) (some mid)))
    (hlast : ∀ rs j q, (rs ++ [j]).Perm (List.range n) →
      exec (cmd j) (s.during (T rs) q) = .next (u.withResponse (.okMessage ⟨g ((rs ++ [j]).headD 0), p⟩)))
    {rs l : List Nat} (q : Option Response) (hl : l ≠ []) (hperm : (rs ++ l).Perm (List.range n)) :
    runCommands (l.map cmd) (s.during (T rs) q) =
      some (List.replicate (l.length - 1) mid ++ [.okMessage ⟨g ((rs ++ l).headD 0), p⟩],
        u.withResponse (.okMessage ⟨g ((rs ++ l).headD 0), p⟩)) := by
  induction l generalizing rs q with
  | nil => exact absurd rfl hl
  | cons j l ih =>
    cases l with
    | nil => exact runCommands_cons [] (hlast rs j q hperm) rfl
    | cons i l =>
      have hrest : (rs ++ [j] ++ i :: l).Perm (List.range n) := by simpa using hperm
      rw [List.map_cons, runCommands_cons _ (hmid rs j (i :: l) q (by simp) hperm) rfl, ih (some mid) (by simp) hrest]
      simp [List.replicate_succ]

/-! ### ADD_FRAGMENT in any order -/

/-- The slice of fragment `j` (R93, R124). -/
abbrev sliceOf (p : Bytes) (j : Nat) : Bytes := (p.drop (228 * j)).take 228

/-- The slices of a payload, joined in order, are the payload as far as they reach. -/
theorem flatten_slices (p : Bytes) (n : Nat) : ((List.range n).map (sliceOf p)).flatten = p.take (228 * n) := by
  induction n with
  | zero => simp
  | succ n ih => simp [List.range_succ, ih, Nat.mul_succ, List.take_add]

/-- The headers of a payload's fragments, and its slices, are those of one message. -/
theorem messageFragments_of_payload {h : Header} {p : Bytes} (hp : p.length ≤ 1024) (c : Nat → Half) :
    MessageFragments (keyOf h) (fragmentTotal p) p
      (fun j => { fragmentHeader h (BitVec.ofNat 8 j) (fragmentTotal p) with checksum := c j })
      (sliceOf p) := by
  have hle := fragmentTotal_le hp
  refine ⟨fun j => rfl, fun j => toNat_fragmentTotal hp, fun {j} hj => ?_, by omega, ?_, hp⟩
  · exact (BitVec.toNat_ofNat j 8).trans (Nat.mod_eq_of_lt (by omega))
  · rw [flatten_slices, List.take_of_length_le (by simp only [fragmentTotal]; omega)]

theorem fragments_ne_nil {l : List Nat} {p : Bytes} (hl : l.Perm (List.range (fragmentTotal p))) : l ≠ [] := by
  rintro rfl
  have := hl.length_eq
  simp only [List.length_nil, List.length_range, fragmentTotal] at this
  omega

theorem exec_addFragment_during {h : Header} {x : Bytes} {s : State} {t u : List FragmentBuffer} {r : AddResult}
    (hx : x.length ≤ 228) (e : addFragment Config.fragRejectOrder t h x = (u, r)) (q : Option Response) :
    exec (.addFragment h x) (s.during t q) = .next (s.during u (some (addResponse r))) :=
  exec_addFragment_of_eq hx e

/-- Settles O29: each fragment but the last extends the buffer, and the last joins its slices. -/
theorem reassemblyInAnyOrderGivesThePayload : Obligations.ReassemblyInAnyOrderGivesThePayload := by
  intro h p c l s hp hl habsent n g
  have m : MessageFragments (keyOf h) n p g (sliceOf p) := messageFragments_of_payload hp c
  have hslice (j : Nat) : (sliceOf p j).length ≤ 228 := List.length_take_le _ _
  have hrun := runCommands_in_any_order (u := s.withFt (makeRoom s.ft))
    (fun _ j _ q hne hperm => exec_addFragment_during (hslice j) (m.addFragment_more _ habsent hne hperm) q)
    (fun _ j q hperm => exec_addFragment_during (hslice j) (m.addFragment_last _ habsent hperm) q)
    (rs := []) s.response (fragments_ne_nil hl) hl
  rw [hl.length_eq, List.length_range] at hrun
  exact hrun

end Sys2Proof.Machine
end

section
/-! PROOFS. What is sent is received (`41_fragment_engine.md` R137, `42_inbound_processor.md` R155): the frames
GET_FRAGMENT emits, given to PROCESS in any order. -/

namespace Sys2Proof.Machine

/-! ### PROCESS on an emitted frame -/

/-- An emitted frame of a key the receive window does not hold passes every test of PROCESS (R146 to R148). -/
theorem exec_process_emittedFrame {h : Header} (hv : h.version = 1) {p : Bytes} {idx : Byte} {s u : State}
    (hk : keyOf h ∉ s.rxw) {r : Response}
    (e : route Config.zeroTotalPolicy Config.fragRejectOrder s (emittedHeader h p idx) (fragmentSlice p idx.toNat) =
      (u, r)) :
    exec (.process (emittedFrame h p idx)) s = .next (u.withResponse r) := by
  have hkey : keyOf (emittedHeader h p idx) ∉ s.rxw := hk
  have hprocess := process_serialize_append Config.zeroTotalPolicy Config.fragRejectOrder s
    (h := emittedHeader h p idx) hv (fragmentSlice p idx.toNat)
  rw [if_neg hkey, if_neg (not_not.mpr (headerChecksum_emittedHeader h p idx)), e] at hprocess
  refine exec_process_eq_next_iff.mpr ⟨(emittedFrame_length h p idx).2, ?_⟩
  rw [emittedFrame, hprocess]

theorem route_of_incomplete {zp : ZeroTotalPolicy} {ro : FragRejectOrder} {s : State} {h : Header} {x : Bytes}
    {t : List FragmentBuffer} (h1 : 1 < h.totalFragments.toNat) (e : addFragment ro s.ft h x = (t, .incomplete)) :
    route zp ro s h x = (s.withFt t, .none) := by
  rw [route, if_pos h1, reassemble, e]

theorem route_of_complete {zp : ZeroTotalPolicy} {ro : FragRejectOrder} {s : State} {h : Header} {x : Bytes}
    {t : List FragmentBuffer} {m : Message} (h1 : 1 < h.totalFragments.toNat)
    (e : addFragment ro s.ft h x = (t, .complete m)) :
    route zp ro s h x = ((s.withFt t).withRxw (record s.rxw 32 (keyOf h)), .okMessage m) := by
  rw [route, if_pos h1, reassemble, e, Config.par_rxDedupCap]

theorem route_of_single {zp : ZeroTotalPolicy} {ro : FragRejectOrder} {s : State} {h : Header} {x : Bytes}
    (h1 : h.totalFragments.toNat = 1) :
    route zp ro s h x = (s.withRxw (record s.rxw 32 (keyOf h)), .okMessage ⟨h, x⟩) := by
  rw [route, if_neg (by omega), if_pos h1, deliverDirect, Config.par_rxDedupCap]

/-! ### The emitted frames of one message -/

/-- The slice in fragment `j`, for the indices in use. -/
theorem fragmentSlice_ofNat {p : Bytes} (hp : p.length ≤ 1024) {j : Nat} (hj : j < fragmentTotal p) :
    fragmentSlice p (BitVec.ofNat 8 j).toNat = sliceOf p j := by
  have hle := fragmentTotal_le hp
  rw [fragmentSlice_eq, BitVec.toNat_ofNat, Nat.mod_eq_of_lt (by omega)]

theorem responseBytes_getFragment {h : Header} {p : Bytes} (hp : p.length ≤ 1024) {j : Nat}
    (hj : j < fragmentTotal p) :
    responseBytes (getFragment h p (BitVec.ofNat 8 j)) = emittedFrame h p (BitVec.ofNat 8 j) := by
  have hle := fragmentTotal_le hp
  have hlt : ¬ fragmentTotal p ≤ (BitVec.ofNat 8 j).toNat := by
    rw [BitVec.toNat_ofNat, Nat.mod_eq_of_lt (by omega)]
    omega
  rw [getFragment_eq h hp, if_neg hlt]
  rfl

/-- The header of emitted fragment `j`, its index a number. -/
abbrev emittedHeaderAt (h : Header) (p : Bytes) (j : Nat) : Header := emittedHeader h p (BitVec.ofNat 8 j)

theorem messageFragments_emitted (h : Header) {p : Bytes} (hp : p.length ≤ 1024) :
    MessageFragments (keyOf h) (fragmentTotal p) p (emittedHeaderAt h p) (sliceOf p) :=
  messageFragments_of_payload hp _

/-- The state after the last frame, but for the answer: a message of one fragment does not enter the table (R153). -/
def stateAfterMessage (s : State) (h : Header) (p : Bytes) : State :=
  { s with
    ft := if fragmentTotal p = 1 then s.ft else makeRoom s.ft
    rxw := record s.rxw 32 (keyOf h) }

section
variable {h : Header} {p : Bytes} {s : State}

/-- A frame that is not the last is stored (R150). -/
theorem exec_process_emittedFrame_more (hv : h.version = 1) (hp : p.length ≤ 1024)
    (habsent : ∀ b ∈ s.ft, b.key ≠ keyOf h) (hk : keyOf h ∉ s.rxw) {rs l : List Nat} {j : Nat} (hl : l ≠ [])
    (hperm : (rs ++ j :: l).Perm (List.range (fragmentTotal p))) (q : Option Response) :
    exec (.process (emittedFrame h p (BitVec.ofNat 8 j)))
        (s.during (tableAfter s.ft (emittedHeaderAt h p) (sliceOf p) rs) q) =
      .next (s.during (tableAfter s.ft (emittedHeaderAt h p) (sliceOf p) (rs ++ [j])) (some .none)) := by
  have m := messageFragments_emitted h hp
  obtain ⟨hj, -⟩ := next_index_of_perm hperm
  have hadd := m.addFragment_more Config.fragRejectOrder habsent hl hperm
  rw [← fragmentSlice_ofNat hp hj] at hadd
  have hpos := List.length_pos_iff.mpr hl
  have hlen := hperm.length_eq
  simp only [List.length_append, List.length_cons, List.length_range] at hlen
  have htotal : 1 < (emittedHeaderAt h p j).totalFragments.toNat := by
    rw [m.total]
    omega
  exact exec_process_emittedFrame (s := s.during _ q) hv hk (route_of_incomplete htotal hadd)

/-- The last frame delivers the Message, and the key is recorded (R149, R153). -/
theorem exec_process_emittedFrame_last (hv : h.version = 1) (hp : p.length ≤ 1024)
    (habsent : ∀ b ∈ s.ft, b.key ≠ keyOf h) (hk : keyOf h ∉ s.rxw) {rs : List Nat} {j : Nat}
    (hperm : (rs ++ [j]).Perm (List.range (fragmentTotal p))) (q : Option Response) :
    exec (.process (emittedFrame h p (BitVec.ofNat 8 j)))
        (s.during (tableAfter s.ft (emittedHeaderAt h p) (sliceOf p) rs) q) =
      .next ((stateAfterMessage s h p).withResponse
        (.okMessage ⟨emittedHeaderAt h p ((rs ++ [j]).headD 0), p⟩)) := by
  have m := messageFragments_emitted h hp
  obtain ⟨hj, -⟩ := next_index_of_perm hperm
  by_cases h1 : fragmentTotal p = 1
  · obtain rfl : rs = [] := by
      have hlen := hperm.length_eq
      rw [h1] at hlen
      exact List.length_eq_zero_iff.mp (Nat.succ.inj (List.length_append.symm.trans hlen))
    obtain rfl : j = 0 := by omega
    have hpayload : sliceOf p 0 = p := by
      have hjoined := m.payload
      rw [h1] at hjoined
      exact (List.append_nil _).symm.trans hjoined
    have hslice := (fragmentSlice_ofNat hp hj).trans hpayload
    have hroute := exec_process_emittedFrame (idx := BitVec.ofNat 8 0) (p := p) (s := s.during s.ft q) hv hk
      (route_of_single ((m.total 0).trans h1))
    rw [hslice] at hroute
    rw [stateAfterMessage, if_pos h1]
    exact hroute
  · have hadd := m.addFragment_last Config.fragRejectOrder habsent hperm
    rw [← fragmentSlice_ofNat hp hj] at hadd
    have htotal : 1 < (emittedHeaderAt h p j).totalFragments.toNat := by
      rw [m.total]
      omega
    have hexec := exec_process_emittedFrame (s := s.during _ q) hv hk (route_of_complete htotal hadd)
    rw [stateAfterMessage, if_neg h1]
    exact hexec

end

/-- Settles O30: the frames hold the fragments of one message, which PROCESS hands to the Fragment Engine in the order
they come, and the single fragment it delivers itself. -/
theorem sentFramesAreReceivedInAnyOrder : Obligations.SentFramesAreReceivedInAnyOrder := by
  intro h p l s hp hv hl habsent hk n frame
  have hframe {j : Nat} (hj : j ∈ l) : frame j = emittedFrame h p (BitVec.ofNat 8 j) :=
    responseBytes_getFragment hp (List.mem_range.mp (hl.subset hj))
  have hne := fragments_ne_nil hl
  have hfirst : l.headD 0 ∈ l := by
    rw [List.headD_eq_head?_getD, List.head?_eq_some_head hne]
    exact List.head_mem hne
  refine ⟨emittedHeader h p (BitVec.ofNat 8 (l.headD 0)), ?_, ?_⟩
  · rw [hframe hfirst]
    exact deserialize_emittedFrame hv p _
  · have hrun := runCommands_in_any_order (u := stateAfterMessage s h p) (g := emittedHeaderAt h p)
      (fun _ _ _ q hne hperm => exec_process_emittedFrame_more hv hp habsent hk hne hperm q)
      (fun _ _ q hperm => exec_process_emittedFrame_last hv hp habsent hk hperm q)
      (rs := []) s.response hne hl
    rw [List.map_congr_left fun j hj => congrArg Instr.process (hframe hj)]
    rw [hl.length_eq, List.length_range] at hrun
    exact hrun

end Sys2Proof.Machine
end

section
/-! PROOFS. The inbound processor (`42_inbound_processor.md`): what a window remembers, the outcome rows of PROCESS
(R154), and what PROCESS reads. -/

namespace Sys2Proof.Machine

/-! ### What a window remembers (R141 to R143) -/

/-- A window within its bound keeps the youngest `cap` of its keys and the new one. -/
theorem record_eq_drop {w : List Key} {cap : Nat} (hc : 0 < cap) (hw : w.length ≤ cap) (k : Key) :
    record w cap k = (w ++ [k]).drop (w.length + 1 - cap) := by
  by_cases hfull : cap ≤ w.length
  · rw [record_of_full hfull, show w.length + 1 - cap = 1 by omega, List.drop_append_of_le_length (by omega)]
  · rw [record_of_room (by omega), show w.length + 1 - cap = 0 by omega, List.drop_zero]

/-- After any number of records a window holds the youngest `cap` keys of all it was given. -/
theorem foldl_record_eq_drop {cap : Nat} (hc : 0 < cap) {w : List Key} (hw : w.length ≤ cap) (ks : List Key) :
    ks.foldl (fun v x => record v cap x) w = (w ++ ks).drop (w.length + ks.length - cap) := by
  induction ks generalizing w with
  | nil => simp [Nat.sub_eq_zero_of_le hw]
  | cons k ks ih =>
    have hlen : (record w cap k).length = w.length + 1 - (w.length + 1 - cap) := by
      simp [record_eq_drop hc hw]
    rw [List.foldl_cons, ih (record_length_le hc hw k), hlen, record_eq_drop hc hw,
      ← List.drop_append_of_le_length (by simp), List.drop_drop, List.append_assoc, List.singleton_append,
      List.length_cons]
    congr 1
    omega

/-- A key is left, after its last occurrence, exactly when no more entries have gone than came before that one. -/
theorem mem_drop_append_cons_iff (w : List Key) {ks : List Key} {k : Key} (hks : k ∉ ks) (n : Nat) :
    k ∈ (w ++ k :: ks).drop n ↔ n ≤ w.length := by
  constructor
  · intro hm
    by_contra hn
    obtain ⟨j, rfl⟩ := Nat.exists_eq_add_of_lt (Nat.not_le.mp hn)
    rw [Nat.add_assoc, ← List.drop_drop, List.drop_left, List.drop_succ_cons] at hm
    exact hks (List.mem_of_mem_drop hm)
  · intro hn
    rw [List.drop_append_of_le_length hn]
    exact List.mem_append_right _ List.mem_cons_self

/-- Settles O31: the window is the youngest `cap` of all keys it was given, and `k` is not among the further ones. -/
theorem windowRemembersTheLastRecords : Obligations.WindowRemembersTheLastRecords := by
  intro w cap k ks hc hw _ hks
  rw [contains_iff_mem, ← List.foldl_cons (f := fun v x => record v cap x), foldl_record_eq_drop hc hw,
    mem_drop_append_cons_iff w hks, List.length_cons]
  omega

/-! ### PROCESS, row by row (R144, R154) -/

/-- What the command does is what `process` does to the state, and its answer. -/
theorem exec_process_of_eq {f : Bytes} {s u : State} {r : Response} (hf : f.length ≤ 244)
    (e : process Config.zeroTotalPolicy Config.fragRejectOrder s f = (u, r)) :
    exec (.process f) s = .next (u.withResponse r) :=
  exec_process_eq_next_iff.mpr ⟨hf, by rw [e]⟩

/-- Rows 1 to 3: a frame that does not parse (R145, R146). -/
theorem process_of_not_parsed (zp : ZeroTotalPolicy) (ro : FragRejectOrder) (s : State) {f : Bytes}
    (hd : deserialize f = none) : process zp ro s f = (s, .errInvalidMessage) := by
  rcases process_cases zp ro s f with ⟨-, e⟩ | ⟨h, hs, -⟩ | ⟨h, hs, -⟩ | ⟨h, hs, -⟩
  · exact e
  all_goals
    rw [hd] at hs
    cases hs

/-- A frame that parses is laid out as its header and a payload, so `process_serialize_append` speaks of it. -/
theorem exists_serialize_append {f : Bytes} {h : Header} (hd : deserialize f = some h) (hf : f.length ≤ 244) :
    ∃ p, h.version = 1 ∧ p.length ≤ 228 ∧ f = serialize h ++ p := by
  obtain ⟨hv, e⟩ := deserialize_eq_some hd
  refine ⟨f.drop 16, hv, ?_, e⟩
  rw [List.length_drop]
  omega

theorem serialize_append_length_le (h : Header) {p : Bytes} (hp : p.length ≤ 228) :
    (serialize h ++ p).length ≤ 244 := by
  rw [List.length_append, serialize_length]
  omega

/-- A frame of a new key with the right checksum is answered as it is routed (R149, R151, R153). -/
theorem exec_process_of_route {h : Header} {p : Bytes} {s u : State} {r : Response} (hv : h.version = 1)
    (hp : p.length ≤ 228) (hk : keyOf h ∉ s.rxw) (hc : headerChecksum h p = h.checksum)
    (e : route Config.zeroTotalPolicy Config.fragRejectOrder s h p = (u, r)) :
    exec (.process (serialize h ++ p)) s = .next (u.withResponse r) := by
  refine exec_process_of_eq (serialize_append_length_le h hp) ?_
  rw [process_serialize_append _ _ s hv, if_neg hk, if_neg (not_not.mpr hc), e]

theorem route_of_error {zp : ZeroTotalPolicy} {ro : FragRejectOrder} {s : State} {h : Header} {x : Bytes}
    {t : List FragmentBuffer} (h1 : 1 < h.totalFragments.toNat) (e : addFragment ro s.ft h x = (t, .error)) :
    route zp ro s h x = (s.withFt t, .errFragmentation) := by
  rw [route, if_pos h1, reassemble, e]

theorem route_of_zero {zp : ZeroTotalPolicy} {ro : FragRejectOrder} {s : State} {h : Header} {x : Bytes}
    (h0 : h.totalFragments.toNat = 0) : route zp ro s h x = zeroTotal zp s h x := by
  rw [route, if_neg (by omega), if_neg (by omega)]

/-- Settles O32: each of the three causes is one for which the frame does not parse. -/
theorem processRejectsMalformedFrames : Obligations.ProcessRejectsMalformedFrames := by
  intro f s hf hcause
  exact exec_process_of_eq hf (process_of_not_parsed _ _ s ((deserialize_eq_none_iff f).mpr hcause))

/-- Settles O33: the window is asked before the checksum is looked at. -/
theorem processDropsKnownKeys : Obligations.ProcessDropsKnownKeys := by
  intro h p s hv hp hk
  refine exec_process_of_eq (serialize_append_length_le h hp) ?_
  rw [process_serialize_append _ _ s hv]
  exact if_pos hk

/-- Settles O34: the checksum the model compares is that of the header without its checksum field, and the payload. -/
theorem processReportsChecksumMismatch : Obligations.ProcessReportsChecksumMismatch := by
  intro h p s hv hp hk hc
  refine exec_process_of_eq (serialize_append_length_le h hp) ?_
  rw [process_serialize_append _ _ s hv]
  exact (if_neg hk).trans (if_pos hc)

/-- Settles O35: a total of 1 is routed past the Fragment Engine. -/
theorem processDeliversSingleFragments : Obligations.ProcessDeliversSingleFragments := by
  intro h p s hv hp hk hc htotal
  exact exec_process_of_route hv hp hk hc (route_of_single (congrArg BitVec.toNat htotal))

/-- Settles O36: a total of 0 is routed to the policy, and each of the three has its answer. -/
theorem processOfZeroTotalFollowsThePolicy : Obligations.ProcessOfZeroTotalFollowsThePolicy := by
  intro h p s hv hp hk hc htotal
  have hroute : route Config.zeroTotalPolicy Config.fragRejectOrder s h p = zeroTotal Config.zeroTotalPolicy s h p :=
    route_of_zero (congrArg BitVec.toNat htotal)
  rw [exec_process_of_route hv hp hk hc hroute]
  cases Config.zeroTotalPolicy with
  | direct => rfl
  | fragError => rfl
  | invalid => rfl

/-- Settles O37: the same fragment in the same table has the same result under both commands. -/
theorem processRoutesFragmentsToReassembly : Obligations.ProcessRoutesFragmentsToReassembly := by
  intro h p s hv hp hk hc htotal
  rcases ha : addFragment Config.fragRejectOrder s.ft h p with ⟨t, m | _ | _⟩ <;>
    refine ⟨_, exec_addFragment_of_eq hp ha, ?_⟩
  case complete =>
    exact .inl ⟨m, rfl, exec_process_of_route hv hp hk hc (route_of_complete htotal ha)⟩
  case incomplete =>
    exact .inr (.inl ⟨rfl, exec_process_of_route (u := s.withFt t) hv hp hk hc (route_of_incomplete htotal ha)⟩)
  case error =>
    exact .inr (.inr ⟨rfl, exec_process_of_route hv hp hk hc (route_of_error htotal ha)⟩)

/-! ### A delivered frame again (R155) -/

/-- Whatever is delivered is recorded (R150, R151, R153). -/
theorem keyOf_mem_rxw_of_route {zp : ZeroTotalPolicy} {ro : FragRejectOrder} {s u : State} {h : Header} {p : Bytes}
    {m : Message} (e : route zp ro s h p = (u, .okMessage m)) : keyOf h ∈ u.rxw := by
  rcases route_cases zp ro s h p with
    ⟨-, ⟨t, m, -, er⟩ | ⟨t, -, er⟩ | ⟨t, -, er⟩⟩ | ⟨-, er | ⟨-, er | er⟩⟩ <;> rw [er] at e <;> cases e
  case inl.inl => exact mem_record_self s.rxw 32 (keyOf h)
  case inr.inl => exact mem_record_self s.rxw 32 (keyOf h)

theorem keyOf_mem_rxw_of_process {zp : ZeroTotalPolicy} {ro : FragRejectOrder} {s u : State} {f : Bytes} {m : Message}
    (e : process zp ro s f = (u, .okMessage m)) : ∃ h, deserialize f = some h ∧ keyOf h ∈ u.rxw := by
  rcases process_cases zp ro s f with ⟨-, ep⟩ | ⟨h, -, -, ep⟩ | ⟨h, -, -, -, ep⟩ | ⟨h, hd, -, -, ep⟩ <;>
    rw [ep] at e
  case inr.inr.inr => exact ⟨h, hd, keyOf_mem_rxw_of_route e⟩
  all_goals cases e

/-- Settles O38: the frame parses to a header whose key its delivery recorded, so that O33 speaks of it. -/
theorem processOfADeliveredFrameAgainIsNone : Obligations.ProcessOfADeliveredFrameAgainIsNone := by
  intro f s t m e hr
  obtain ⟨hf, rfl⟩ := exec_process_eq_next_iff.mp e
  obtain ⟨h, hd, hk⟩ := keyOf_mem_rxw_of_process (Prod.ext rfl (Option.some.inj hr))
  obtain ⟨p, hv, hp, rfl⟩ := exists_serialize_append hd hf
  exact processDropsKnownKeys h p _ hv hp hk

/-! ### The FRAME rows (log entry 2) -/

/-- Settles O40: a FRAME row is PROCESS on its bytes, which are a header of version 1 and the row's type, and the
payload. -/
theorem frameRowsDeliverSingleFragments : Obligations.FrameRowsDeliverSingleFragments := by
  intro b s hp htotal hk ti hti h hc
  rw [eq_frameInstr_of_mem_rows hti, exec_frameInstr, frameBytes_eq_serialize_append]
  exact processDeliversSingleFragments h b.payload s rfl hp hk hc htotal

/-! ### What PROCESS reads (R140) -/

/-- The same answer, receive window and Fragment Table: all that PROCESS gives. -/
abbrev SameOutcome (x y : State × Response) : Prop := x.2 = y.2 ∧ x.1.rxw = y.1.rxw ∧ x.1.ft = y.1.ft

theorem sameOutcome_reassemble (ro : FragRejectOrder) {s u : State} (hrxw : s.rxw = u.rxw) (hft : s.ft = u.ft)
    (h : Header) (p : Bytes) : SameOutcome (reassemble ro s h p) (reassemble ro u h p) := by
  rw [reassemble, reassemble, hrxw, hft]
  rcases addFragment ro u.ft h p with ⟨t, m | _ | _⟩
  case complete => exact ⟨rfl, rfl, rfl⟩
  case incomplete => exact ⟨rfl, hrxw, rfl⟩
  case error => exact ⟨rfl, hrxw, rfl⟩

theorem sameOutcome_deliverDirect {s u : State} (hrxw : s.rxw = u.rxw) (hft : s.ft = u.ft) (h : Header) (p : Bytes) :
    SameOutcome (deliverDirect s h p) (deliverDirect u h p) := by
  rw [deliverDirect, deliverDirect, hrxw]
  exact ⟨rfl, rfl, hft⟩

theorem sameOutcome_zeroTotal (zp : ZeroTotalPolicy) {s u : State} (hrxw : s.rxw = u.rxw) (hft : s.ft = u.ft)
    (h : Header) (p : Bytes) : SameOutcome (zeroTotal zp s h p) (zeroTotal zp u h p) := by
  cases zp with
  | direct => exact sameOutcome_deliverDirect hrxw hft h p
  | fragError => exact ⟨rfl, hrxw, hft⟩
  | invalid => exact ⟨rfl, hrxw, hft⟩

/-- Routing is decided by the header alone (R149, R151, R153). -/
theorem sameOutcome_route (zp : ZeroTotalPolicy) (ro : FragRejectOrder) {s u : State} (hrxw : s.rxw = u.rxw)
    (hft : s.ft = u.ft) (h : Header) (p : Bytes) : SameOutcome (route zp ro s h p) (route zp ro u h p) := by
  unfold route
  split_ifs
  · exact sameOutcome_reassemble ro hrxw hft h p
  · exact sameOutcome_deliverDirect hrxw hft h p
  · exact sameOutcome_zeroTotal zp hrxw hft h p

/-- The tests before routing look at the frame, and at the receive window alone of the state. -/
theorem sameOutcome_process (zp : ZeroTotalPolicy) (ro : FragRejectOrder) {s u : State} (hrxw : s.rxw = u.rxw)
    (hft : s.ft = u.ft) (f : Bytes) : SameOutcome (process zp ro s f) (process zp ro u f) := by
  cases hd : deserialize f with
  | none =>
    rw [process_of_not_parsed zp ro s hd, process_of_not_parsed zp ro u hd]
    exact ⟨rfl, hrxw, hft⟩
  | some h =>
    obtain ⟨hv, e⟩ := deserialize_eq_some hd
    rw [e, process_serialize_append zp ro s hv, process_serialize_append zp ro u hv, hrxw]
    split_ifs
    · exact ⟨rfl, hrxw, hft⟩
    · exact ⟨rfl, hrxw, hft⟩
    · exact sameOutcome_route zp ro hrxw hft h _

/-- Settles O53: two runs of `process` on states with one receive window and one Fragment Table. -/
theorem processReadsOnlyWindowAndTable : Obligations.ProcessReadsOnlyWindowAndTable := by
  intro f s u t v hrxw hft es eu
  obtain ⟨-, rfl⟩ := exec_process_eq_next_iff.mp es
  obtain ⟨-, rfl⟩ := exec_process_eq_next_iff.mp eu
  obtain ⟨hresponse, hwindow, htable⟩ :=
    sameOutcome_process Config.zeroTotalPolicy Config.fragRejectOrder hrxw hft f
  exact ⟨congrArg some hresponse, hwindow, htable⟩

end Sys2Proof.Machine
end

section
/-! PROOFS. The relay policy and the system operations (`43_relay_policy.md`): what SHOULD_RELAY decides, records and
reads, what PREPARE_FOR_RELAY rewrites, and what IS_FOR_US, RESET and CFG_WRITE answer and leave. -/

namespace Sys2Proof.Machine

/-! ### The relay decision (R161 to R164) -/

/-- A barred header: the answer is 0 and nothing else is written (R162). -/
theorem exec_shouldRelay_of_barred {h : Header} {s : State} (hb : relayBarred s h = true) :
    exec (.shouldRelay h) s = .next (s.withResponse (.okVal 0)) := by
  rw [exec_shouldRelay, shouldRelay, if_pos hb]
  rfl

/-- A header nothing bars: its key is recorded and the answer is 1 (R161). -/
theorem exec_shouldRelay_of_not_barred {h : Header} {s : State} (hb : relayBarred s h = false) :
    exec (.shouldRelay h) s = .next ((s.withRlw (record s.rlw 16 (keyOf h))).withResponse (.okVal 1)) := by
  rw [exec_shouldRelay, shouldRelay, if_neg (Bool.eq_false_iff.mp hb), Config.par_relayDedupCap]
  rfl

/-- The five conditions of R161 read the key, the ttl up to being 0 and the type up to being Ack of the header, and the
two registers and the relay window of the state. -/
theorem relayBarred_congr {s u : State} {h g : Header} (hkey : keyOf h = keyOf g) (httl : h.ttl = 0 ↔ g.ttl = 0)
    (hack : h.msgType = .ack ↔ g.msgType = .ack) (hown : s.ownId = u.ownId) (hen : s.relayEn = u.relayEn)
    (hrlw : s.rlw = u.rlw) : relayBarred s h = relayBarred u g := by
  have hsender : h.senderId = g.senderId := congrArg Key.senderId hkey
  rw [Bool.eq_iff_iff, relayBarred_eq_true_iff, relayBarred_eq_true_iff, hkey, hsender, httl, hack, hown, hen, hrlw]

/-- Settles O41: the five conditions are `relayBarred`, and the window written is `record`. -/
theorem shouldRelayDecidesAndRecords : Obligations.ShouldRelayDecidesAndRecords := by
  intro h s
  have hiff := relayBarred_eq_true_iff s h
  cases hb : relayBarred s h with
  | true => exact (exec_shouldRelay_of_barred hb).trans (congrArg _ (if_pos (hiff.mp hb)).symm)
  | false =>
    have hno := mt hiff.mpr (Bool.eq_false_iff.mp hb)
    exact (exec_shouldRelay_of_not_barred hb).trans (congrArg _ (if_neg hno).symm)

/-- Settles O42: only the recording path answers 1, and the recorded key bars the second header. -/
theorem relayedKeyIsNotRelayedAgain : Obligations.RelayedKeyIsNotRelayedAgain := by
  intro h g s t he hr hseq hsender
  refine exec_shouldRelay_of_barred ((relayBarred_eq_true_iff t g).mpr (.inr (.inr (.inl ?_))))
  have hkey : keyOf g = keyOf h := by rw [keyOf, hseq, hsender, keyOf]
  cases hb : relayBarred s h with
  | true =>
    rw [exec_shouldRelay_of_barred hb, Host.Outcome.next.injEq] at he
    subst he
    exact absurd hr (by simp)
  | false =>
    rw [exec_shouldRelay_of_not_barred hb, Host.Outcome.next.injEq] at he
    subst he
    rw [hkey]
    exact mem_record_self s.rlw 16 (keyOf h)

/-- Settles O43: both runs take the same branch, and what that branch writes is made of the key and the window. -/
theorem relayDecisionReadsOnlyItsInputs : Obligations.RelayDecisionReadsOnlyItsInputs := by
  intro h g s u t v hsender hseq httl hack hown hen hrlw es eu
  have hkey : keyOf h = keyOf g := by rw [keyOf, hsender, hseq, keyOf]
  have hbar := relayBarred_congr hkey httl hack hown hen hrlw
  cases hb : relayBarred s h with
  | true =>
    rw [exec_shouldRelay_of_barred hb, Host.Outcome.next.injEq] at es
    rw [exec_shouldRelay_of_barred (hbar ▸ hb), Host.Outcome.next.injEq] at eu
    subst es eu
    exact ⟨rfl, hrlw⟩
  | false =>
    rw [exec_shouldRelay_of_not_barred hb, Host.Outcome.next.injEq] at es
    rw [exec_shouldRelay_of_not_barred (hbar ▸ hb), Host.Outcome.next.injEq] at eu
    subst es eu
    rw [hrlw, hkey]
    exact ⟨rfl, rfl⟩

/-! ### The relayed copy (R165) -/

/-- The model's decrement is subtraction on natural numbers, which stops at 0. -/
theorem decrementTtl_eq (ttl : Byte) : decrementTtl ttl = BitVec.ofNat 8 (ttl.toNat - 1) := by
  unfold decrementTtl
  split_ifs with hzero
  · rw [hzero]
    rfl
  · bv_omega

/-- Settles O44: the two fields PREPARE_FOR_RELAY rewrites, by their own equations. -/
theorem prepareForRelayDecrementsAndMarks : Obligations.PrepareForRelayDecrementsAndMarks := by
  intro h s
  rw [← decrementTtl_eq]
  exact exec_eq_next_of_presented_respond rfl (exec_prepareForRelay h) s

/-! ### IS_FOR_US, RESET and CFG_WRITE (R167, R169, R171) -/

/-- Settles O45: the equation of IS_FOR_US, whose answer does not look at the header. -/
theorem isForUsAnswersOne : Obligations.IsForUsAnswersOne := by
  intro h s
  exact exec_eq_next_of_presented_respond rfl (exec_isForUs h) s

/-- Settles O46: the block `resetBlock` gives, field by field. -/
theorem resetEmptiesTheTables : Obligations.ResetEmptiesTheTables := by
  intro o e s
  rw [exec_reset]
  rfl

/-- Settles O47: CFG_WRITE writes by `withConfig`, which keeps the tables. -/
theorem cfgWriteLeavesTheTables : Obligations.CfgWriteLeavesTheTables := by
  intro o e s
  rw [exec_cfgWrite]
  rfl

end Sys2Proof.Machine
end

section
/-! PROOFS. The host software (`44_host_software.md`): the commands of `SEND` and the frames they are answered with, and
what `parse` keeps of a payload. -/

namespace Sys2Proof.Machine

/-! ### `SEND` (R91, R184) -/

/-- A command, and commands whose answers do not depend on the state, when each writes its answer and nothing else
(R58, R60). -/
theorem runCommands_of_answers {cmd : Nat → Instr} {ans : Nat → Response} {i : Instr} {r : Response} {s : State}
    {l : List Nat} (hi : exec i s = .next (s.withResponse r))
    (hl : ∀ j ∈ l, ∀ u, exec (cmd j) u = .next (u.withResponse (ans j))) :
    runCommands (i :: l.map cmd) s = some (r :: l.map ans, s.withResponse ((l.map ans).getLastD r)) := by
  induction l generalizing i r s with
  | nil => exact runCommands_cons [] hi rfl
  | cons j l ih =>
    have hrest := ih (hl j (by simp) (s.withResponse r)) fun k hk => hl k (by simp [hk])
    rw [runCommands_cons _ hi rfl, List.map_cons, hrest, List.map_cons, List.getLastD_cons]
    rfl

theorem exec_fragCount_of_length_le {p : Bytes} (hp : p.length ≤ 1024) (s : State) :
    exec (.fragCount p.length) s = .next (s.withResponse (.okVal (BitVec.ofNat 16 (fragmentTotal p)))) := by
  have hlt : ¬ 1824 < p.length := by omega
  have h := fragCountAnswersCeiling p.length s (by omega)
  rw [if_neg hlt] at h
  exact h

/-- An index in use fits its byte. -/
theorem toNat_ofNat_index {p : Bytes} (hp : p.length ≤ 1024) {j : Nat} (hj : j < fragmentTotal p) :
    (BitVec.ofNat 8 j).toNat = j := by
  have hle := fragmentTotal_le hp
  rw [BitVec.toNat_ofNat, Nat.mod_eq_of_lt (by omega)]

theorem exec_getFragment_of_lt_total (h : Header) {p : Bytes} (hp : p.length ≤ 1024) {j : Nat}
    (hj : j < fragmentTotal p) (s : State) :
    exec (.getFragment h p (BitVec.ofNat 8 j)) s =
      .next (s.withResponse (.okData (emittedFrame h p (BitVec.ofNat 8 j)))) := by
  rw [exec_getFragment_of_length_le h hp, toNat_ofNat_index hp hj, if_neg (Nat.not_le.mpr hj)]

/-- The frames `SEND` emits for a Message, in their order. -/
def sentFrames (m : Message) : List Bytes :=
  (List.range (fragmentTotal m.payload)).map fun j => emittedFrame m.header m.payload (BitVec.ofNat 8 j)

@[simp] theorem sentFrames_length (m : Message) : (sentFrames m).length = fragmentTotal m.payload := by
  simp [sentFrames]

theorem sentFrames_getD {m : Message} {j : Nat} (hj : j < fragmentTotal m.payload) :
    (sentFrames m).getD j [] = emittedFrame m.header m.payload (BitVec.ofNat 8 j) := by
  simp [sentFrames, List.getD, hj]

/-- `SEND` is answered with the count and the frames, and nothing is written but the last answer. -/
theorem runCommands_sendCommands {m : Message} (hm : m.payload.length ≤ 1024) (s : State) :
    runCommands (sendCommands m) s =
      some (.okVal (BitVec.ofNat 16 (sentFrames m).length) :: (sentFrames m).map .okData,
        s.withResponse (((sentFrames m).map .okData).getLastD (.okVal (BitVec.ofNat 16 (sentFrames m).length)))) := by
  rw [sendCommands, fragCount_of_length_le hm, Option.getD_some, sentFrames_length, sentFrames, List.map_map]
  exact runCommands_of_answers (exec_fragCount_of_length_le hm s) fun j hj =>
    exec_getFragment_of_lt_total m.header hm (List.mem_range.mp hj)

theorem drop_emittedFrame {p : Bytes} (hp : p.length ≤ 1024) (h : Header) {j : Nat} (hj : j < fragmentTotal p) :
    (emittedFrame h p (BitVec.ofNat 8 j)).drop 16 = sliceOf p j := by
  rw [emittedFrame, List.drop_left' (serialize_length _), fragmentSlice_ofNat hp hj]

theorem createText_eq_some {d : DeviceId} {q : Half} {text : Bytes} {m : Message} (e : createText d q text = some m) :
    text.length ≤ 1024 ∧ m = ⟨createdHeader .text d q, text⟩ := by
  rw [createText, Config.par_maxMessageSize] at e
  split at e
  · rename_i hlen
    exact ⟨hlen, (Option.some.inj e).symm⟩
  · cases e

/-- Settles O59: the frames of SEND are the emitted frames of the created header, whose other fields they carry. -/
theorem createdTextIsSent : Obligations.CreatedTextIsSent := by
  intro d q text m s e
  obtain ⟨hlen, rfl⟩ := createText_eq_some e
  refine ⟨_, _, sentFrames_length _, runCommands_sendCommands hlen s, fun j hj => ?_⟩
  rw [sentFrames_length] at hj ⊢
  rw [sentFrames_getD hj]
  have hversion : (createdHeader .text d q).version = 1 := Config.par_protocolVersion
  refine ⟨(emittedFrame_length _ _ _).2, verify_emittedFrame _ _ _, drop_emittedFrame hlen _ hj, emittedHeader _ _ _,
    deserialize_emittedFrame hversion _ _, ?_⟩
  exact ⟨toNat_ofNat_index hlen hj, toNat_fragmentTotal hlen, rfl, rfl, rfl, Config.par_defaultTtl, rfl⟩

/-! ### Well-formed sequences (log entry 8) -/

/-- A sequence ends within the byte string it begins. -/
theorem utf8Length_le_length (p : Bytes) : utf8Length p ≤ p.length := by
  fun_cases utf8Length p <;> simp

/-- Whether a byte string begins with a sequence of some length is decided by the bytes of that sequence. -/
theorem utf8Length_take (p : Bytes) : utf8Length (p.take (utf8Length p)) = utf8Length p := by
  fun_cases utf8Length p with
  | case2 a t hone => exact if_pos hone
  | case4 a hone b t htwo => exact (if_neg hone).trans (if_pos htwo)
  | case6 a hone b htwo c t hthree => exact (if_neg hone).trans ((if_neg htwo).trans (if_pos hthree))
  | case8 a hone b htwo c hthree d t hfour =>
    exact (if_neg hone).trans ((if_neg htwo).trans ((if_neg hthree).trans (if_pos hfour)))
  | _ => rfl

theorem inRange_iff (lo hi b : Byte) : inRange lo hi b = true ↔ lo ≤ b ∧ b ≤ hi := by
  simp [inRange]

theorem utf8Length_cons_of_ascii {a : Byte} (ha : a.toNat < 128) (t : Bytes) : utf8Length (a :: t) = 1 :=
  if_pos ((inRange_iff 0x00 0x7F a).mpr ⟨by bv_omega, by bv_omega⟩)

theorem utf8Length_cons_FF (t : Bytes) : utf8Length (0xFF :: t) = 0 := by
  rcases t with _ | ⟨b, _ | ⟨c, _ | ⟨d, t⟩⟩⟩ <;> simp [utf8Length, inRange]

/-! ### `parse` (R178) -/

theorem textPrefix_of_zero {p : Bytes} (hp : utf8Length p = 0) (n : Nat) : textPrefix n p = [] := by
  cases n with
  | zero => rfl
  | succ n => rw [textPrefix, if_pos hp]

theorem textPrefix_succ_of_pos {p : Bytes} (hp : 0 < utf8Length p) (n : Nat) :
    textPrefix (n + 1) p = p.take (utf8Length p) ++ textPrefix n (p.drop (utf8Length p)) := by
  rw [textPrefix, if_neg (by omega)]

/-- With a step for every byte, what is kept is made of sequences, and no sequence begins what is left. -/
theorem textPrefix_pieces {n : Nat} {p : Bytes} (hn : p.length ≤ n) :
    ∃ (pieces : List Bytes) (rest : Bytes),
      textPrefix n p = pieces.flatten ∧ p = textPrefix n p ++ rest ∧ utf8Length rest = 0 ∧
      ∀ x ∈ pieces, 0 < x.length ∧ utf8Length x = x.length := by
  induction n generalizing p with
  | zero =>
    obtain rfl : p = [] := List.length_eq_zero_iff.mp (by omega)
    exact ⟨[], [], rfl, rfl, rfl, by simp⟩
  | succ n ih =>
    by_cases h0 : utf8Length p = 0
    · exact ⟨[], p, textPrefix_of_zero h0 _, by rw [textPrefix_of_zero h0, List.nil_append], h0, by simp⟩
    · have hpos : 0 < utf8Length p := by omega
      have hle := utf8Length_le_length p
      obtain ⟨pieces, rest, hkept, hsplit, hrest, hpieces⟩ :=
        ih (p := p.drop (utf8Length p)) (by rw [List.length_drop]; omega)
      refine ⟨p.take (utf8Length p) :: pieces, rest, ?_, ?_, hrest, List.forall_mem_cons.mpr ⟨?_, hpieces⟩⟩
      · rw [textPrefix_succ_of_pos hpos, hkept, List.flatten_cons]
      · rw [textPrefix_succ_of_pos hpos, List.append_assoc, ← hsplit, List.take_append_drop]
      · rw [utf8Length_take, List.length_take, Nat.min_eq_left hle]
        exact ⟨hpos, rfl⟩

/-- ASCII bytes are kept one by one, up to what begins no sequence. -/
theorem textPrefix_ascii_append {p q : Bytes} (hp : ∀ b ∈ p, b.toNat < 128) (hq : utf8Length q = 0) {n : Nat}
    (hn : p.length ≤ n) : textPrefix n (p ++ q) = p := by
  induction p generalizing n with
  | nil => exact textPrefix_of_zero hq n
  | cons a p ih =>
    obtain ⟨ha, htail⟩ := List.forall_mem_cons.mp hp
    obtain ⟨n, rfl⟩ : ∃ k, n = k + 1 := ⟨n - 1, by rw [List.length_cons] at hn; omega⟩
    have hone : utf8Length (a :: p ++ q) = 1 := utf8Length_cons_of_ascii ha (p ++ q)
    have hkept : textPrefix n (p ++ q) = p := ih htail (Nat.le_of_succ_le_succ hn)
    rw [textPrefix_succ_of_pos (by omega), hone]
    exact congrArg (a :: ·) hkept

/-- Settles O60: `parse` takes as many steps as there are bytes, and 0xFF begins no sequence. -/
theorem parsedTextIsAPrefix : Obligations.ParsedTextIsAPrefix := by
  refine ⟨fun p => textPrefix_pieces le_rfl, fun p q hp => ⟨?_, ?_⟩⟩
  · exact textPrefix_ascii_append hp (utf8Length_cons_FF q) (by simp)
  · have hall := textPrefix_ascii_append (q := []) hp rfl (le_refl p.length)
    rwa [List.append_nil] at hall

end Sys2Proof.Machine
end

section
/-! PROOFS. Results and errors (`60_exceptions.md`): every operation ends in a response, an error writes at most
the Fragment Table, and the block waits while nothing is presented. -/

namespace Sys2Proof.Machine

/-! ### Waiting (R198, R218) -/

/-- Settles O5: there is no input to take, so the step is the idle one. -/
theorem stepWithoutInputChangesNothing : Obligations.StepWithoutInputChangesNothing := by
  intro s hp
  rw [step, takeInput_nil hp]
  rfl

/-! ### Totality (R201) -/

theorem exists_response_of_effect {s t : State} (e : Effect s t) : ∃ r, t.response = some r := by
  cases e <;> exact ⟨_, rfl⟩

theorem process_pending (zp : ZeroTotalPolicy) (ro : FragRejectOrder) (s : State) (f : Bytes) :
    (process zp ro s f).1.pending = s.pending := by
  rw [process_frame, State.withRxw_pending, State.withFt_pending]

theorem shouldRelay_pending (s : State) (h : Header) : (shouldRelay s h).1.pending = s.pending := by
  rw [shouldRelay_frame, State.withRlw_pending]

/-- No effect takes an input: the step has taken the only one the operation has (R18). -/
theorem pending_of_effect {s t : State} (e : Effect s t) : t.pending = s.pending := by
  cases e with
  | answered r => rfl
  | reset o b => rfl
  | configured o b => rfl
  | fragmentAdded h p hp => rfl
  | received f hf => exact process_pending _ _ s f
  | relayDecided h => exact shouldRelay_pending s h

/-- Settles O9: what passes the guard has a next state, and every effect an instruction can have answers. -/
theorem everyOperationEndsInAResponse : Obligations.EveryOperationEndsInAResponse := by
  intro i s hw
  obtain ⟨t, ht⟩ := exec_of_wellFormed hw s
  have heffect := exec_effect ht
  obtain ⟨r, hr⟩ := exists_response_of_effect heffect
  exact ⟨t, r, ht, hr, pending_of_effect heffect⟩

/-! ### What an error can write (R199) -/

/-- An error as the response's status code marks it (R77). -/
def Response.IsError (r : Response) : Prop := (statusCode r).getLsbD 7 = true

theorem Response.isError_iff (r : Response) :
    r.IsError ↔ r = .errInvalidMessage ∨ r = .errChecksum ∨ r = .errFragmentation ∨ r = .errMessageTooLarge := by
  obtain ⟨-, -, -, -, -, -, -, -, -, -, -, hbit⟩ := statusBitSevenMarksErrors
  exact hbit r

/-- What an operation answered with the error `r` may have made of `s`: nothing, or, for a FragmentationError alone,
another Fragment Table. -/
def ErrorLeaves (r : Response) (s u : State) : Prop := u = s ∨ (r = .errFragmentation ∧ ∃ ft, u = s.withFt ft)

/-- The only error of ADD_FRAGMENT (R128, R133, R134). -/
theorem addResponse_of_isError {a : AddResult} (he : (addResponse a).IsError) : addResponse a = .errFragmentation := by
  cases a with
  | error => rfl
  | complete m => simp [Response.isError_iff, addResponse] at he
  | incomplete => simp [Response.isError_iff, addResponse] at he

/-- Routing records a key with a Message only, and writes the table only as ADD_FRAGMENT does (R149 to R152). -/
theorem errorLeaves_route (zp : ZeroTotalPolicy) (ro : FragRejectOrder) (s : State) (h : Header) (p : Bytes)
    (he : (route zp ro s h p).2.IsError) : ErrorLeaves (route zp ro s h p).2 s (route zp ro s h p).1 := by
  rcases route_cases zp ro s h p with
    ⟨-, ⟨t, m, -, e⟩ | ⟨t, -, e⟩ | ⟨t, -, e⟩⟩ | ⟨-, e | ⟨-, e | e⟩⟩ <;> rw [e] at he ⊢
  case inl.inl => simp [Response.isError_iff] at he
  case inl.inr.inl => simp [Response.isError_iff] at he
  case inl.inr.inr => exact .inr ⟨rfl, t, rfl⟩
  case inr.inl => simp [Response.isError_iff] at he
  all_goals exact .inl rfl

/-- The tests before routing write nothing (R145 to R148). -/
theorem errorLeaves_process (zp : ZeroTotalPolicy) (ro : FragRejectOrder) (s : State) (f : Bytes)
    (he : (process zp ro s f).2.IsError) : ErrorLeaves (process zp ro s f).2 s (process zp ro s f).1 := by
  rcases process_cases zp ro s f with ⟨-, e⟩ | ⟨h, -, -, e⟩ | ⟨h, -, -, -, e⟩ | ⟨h, -, -, -, e⟩ <;> rw [e] at he ⊢
  case inr.inr.inr => exact errorLeaves_route zp ro s h _ he
  all_goals exact .inl rfl

theorem shouldRelay_not_isError (s : State) (h : Header) : ¬ (shouldRelay s h).2.IsError := by
  rcases shouldRelay_cases s h with ⟨-, e⟩ | ⟨-, e⟩ <;> simp [e, Response.isError_iff]

/-- Every effect answered with an error is the answer written over what the error leaves. -/
theorem errorLeaves_of_effect {s t : State} {r : Response} (e : Effect s t) (hr : t.response = some r)
    (he : r.IsError) : ∃ u, t = u.withResponse r ∧ ErrorLeaves r s u := by
  cases e <;> rw [State.withResponse_response, Option.some.injEq] at hr <;> subst hr
  case answered => exact ⟨s, rfl, .inl rfl⟩
  case reset => simp [Response.isError_iff] at he
  case configured => simp [Response.isError_iff] at he
  case fragmentAdded => exact ⟨_, rfl, .inr ⟨addResponse_of_isError he, _, rfl⟩⟩
  case received f _ => exact ⟨_, rfl, errorLeaves_process _ _ s f he⟩
  case relayDecided h => exact absurd he (shouldRelay_not_isError s h)

/-- Settles O54: a next state is an effect, and what an error leaves differs in the Fragment Table at most. -/
theorem errorsRecordNoKey : Obligations.ErrorsRecordNoKey := by
  intro i s t r e hr herror
  obtain ⟨u, rfl, rfl | ⟨hfrag, ft, rfl⟩⟩ := errorLeaves_of_effect (exec_effect e) hr (r.isError_iff.mpr herror)
  · exact ⟨rfl, rfl, rfl, rfl, fun _ => rfl⟩
  · exact ⟨rfl, rfl, rfl, rfl, fun hne => absurd hfrag hne⟩

end Sys2Proof.Machine
end
